-- ==== Sys2Proof/Word.lean ====
section
/-! DEFINITION. The bit-vector types the spec names: the accumulator and result width, the byte, the
command word and its two fields (00_scope.md R7 and R9, 30_encoding.md R44). -/

namespace Sys2Proof

/-- A 16-bit unsigned value: the accumulator and the result port (R7, R47). -/
abbrev Word := BitVec 16

/-- An input byte, the `DATA` field (R7, R44). -/
abbrev Byte := BitVec 8

/-- A command word, 10 bits, bit 0 the least significant (R10, R44). -/
abbrev CommandWord := BitVec 10

/-- The `OP` field of a command word (R44). -/
abbrev Opcode := BitVec 2

end Sys2Proof
end

