-- ==== Sys2Proof/Machine/Datapath.lean ====
section
/-! DEFINITION. The shift-XOR feedback loop: the pure functions of 40_feedback_loop.md and the fixed
parameters of 00_scope.md R7. -/

namespace Sys2Proof.Machine

/-- `INIT_VALUE` (R7). -/
def initValue : Word := 0xFFFF#16

/-- `POLY`, the feedback constant (R7, R58). -/
def poly : Word := 0xA001#16

/-- Rounds per byte (R7). -/
def roundsPerByte : Nat := 8

/-- `round` of R59: sample bit 0, shift right logically, and XOR the feedback constant in when the
sampled bit was 1. -/
def crcRound (a : Word) : Word :=
  let last := a.getLsbD 0
  let s := a >>> 1
  if last then s ^^^ poly else s

/-- `unround` of R65, the inverse of a round. -/
def unround (y : Word) : Word :=
  let l := y.getLsbD 15
  let z := if l then y ^^^ poly else y
  (z <<< 1) ||| (if l then 1#16 else 0#16)

/-- `n` rounds one after another. -/
def rounds : Nat → Word → Word
  | 0, x => x
  | n + 1, x => rounds n (crcRound x)

/-- `step8` of R64: the rounds of one byte. -/
def step8 (x : Word) : Word := rounds roundsPerByte x

/-- `byteStep` of R62: XOR the zero-extended byte into the accumulator value, then the rounds. -/
def byteStep (a : Word) (b : Byte) : Word := step8 (a ^^^ b.setWidth 16)

/-- `T[i]` of R66. -/
def tableEntry (i : Byte) : Word := step8 (i.setWidth 16)

/-- The table form of a byte step (R66), which an implementation may use in place of the rounds. -/
def byteStepByTable (a : Word) (b : Byte) : Word :=
  (a >>> 8) ^^^ tableEntry ((a ^^^ b.setWidth 16).setWidth 8)

/-- `fold` of R70: one byte step per byte, in order. -/
def crcFold : Word → List Byte → Word
  | a, [] => a
  | a, b :: rest => crcFold (byteStep a b) rest

/-- The checksum of a byte sequence, `fold(0xFFFF, x)` (R70, R83). -/
def checksum (x : List Byte) : Word := crcFold initValue x

end Sys2Proof.Machine
end

