-- ==== Sys2Proof/Syntax.lean ====
section
/-! DEFINITION. The commands of CRCENG-1 as syntax: one constructor per row of spec/opcode_table.json
(30_encoding.md R45, R49, R52). -/

namespace Sys2Proof

/-- A decoded command word. R52 decodes a reserved word `w` to `RESERVED(w)`; the table lists the
reserved words as three rows, so each row is a constructor that carries the word's `DATA` field. -/
inductive Instr where
  /-- INIT, word 0x000 (R71). -/
  | init
  /-- BYTE `b`, word 0x100 + `b` (R73). -/
  | byte (b : Byte)
  /-- READ, word 0x200 (R75). -/
  | read
  /-- A reserved word with `OP = 0b11`, whatever `DATA` holds (R49). -/
  | reservedOp11 (data : Byte)
  /-- A reserved word with `OP = 0b00` and `DATA != 0x00` (R49). -/
  | reservedOp00 (data : Byte)
  /-- A reserved word with `OP = 0b10` and `DATA != 0x00` (R49). -/
  | reservedOp10 (data : Byte)
  deriving DecidableEq, Repr

/-- The kinds of command, without their data: what the open parameter `LATENCY` is indexed by
(92_eei_decisions.md, "Open parameters": "per command kind"). -/
inductive CommandKind where
  | init
  | byte
  | read
  | reserved
  deriving DecidableEq, Repr

/-- The kind of a command (R45). -/
def Instr.kind : Instr → CommandKind
  | .init => .init
  | .byte _ => .byte
  | .read => .read
  | .reservedOp11 _ => .reserved
  | .reservedOp00 _ => .reserved
  | .reservedOp10 _ => .reserved

end Sys2Proof
end

