-- ==== Sys2Proof/WellFormed.lean ====
section
/-! DEFINITION. Which terms of `Instr` stand for a command word: the two reserved rows that exclude
`DATA = 0x00` carry a nonzero `DATA` (30_encoding.md R45, R49). -/

namespace Sys2Proof

/-- A command is well formed when some command word decodes to it: OP 0b00 or 0b10 with
`DATA = 0x00` is INIT or READ, never a reserved word (R45, R49). -/
def Instr.wf : Instr → Bool
  | .init => true
  | .byte _ => true
  | .read => true
  | .reservedOp11 _ => true
  | .reservedOp00 data => data != 0x00#8
  | .reservedOp10 data => data != 0x00#8

end Sys2Proof
end

