-- ==== Sys2Proof/Decode.lean ====
section
/-! DEFINITION. The decoder, total over all 1024 command words (30_encoding.md R52), the transcriber's
refusal of a natural of 1024 or more (R57), and the encoder, written from the same table (R44, R45). -/

namespace Sys2Proof

/-- The field `OP = w[9:8]` (R44). -/
def opField (w : CommandWord) : Opcode := w.extractLsb' 8 2

/-- The field `DATA = w[7:0]` (R44). -/
def dataField (w : CommandWord) : Byte := w.extractLsb' 0 8

/-- The decoder of R52, with `RESERVED(w)` split into the opcode table's three reserved rows. -/
def decode (w : CommandWord) : Instr :=
  let op := opField w
  let data := dataField w
  if op = 0b00#2 then
    if data = 0x00#8 then .init else .reservedOp00 data
  else if op = 0b01#2 then .byte data
  else if op = 0b10#2 then
    if data = 0x00#8 then .read else .reservedOp10 data
  else .reservedOp11 data

/-- Why a natural number offered as a command word is refused before decoding. -/
inductive DecodeError where
  /-- The natural is 1024 or more: wider than the 10-bit format (R57). Raised by the transcriber. -/
  | widerThanFormat (n : Nat)
  deriving DecidableEq, Repr

/-- The transcriber of R57: a natural below 1024 is a command word, any other is refused. -/
def transcribe (n : Nat) : Except DecodeError CommandWord :=
  if n < 1024 then .ok (BitVec.ofNat 10 n) else .error (.widerThanFormat n)

/-- Decoding of a natural number: transcribe it, then decode (R57, R52). -/
def decodeNat (n : Nat) : Except DecodeError Instr :=
  match transcribe n with
  | .ok w => .ok (decode w)
  | .error e => .error e

/-- The instruction this decoder reads from the opcode table's number `w`, never masked: a number of 1024
or more is refused, whatever width it is given in (R57). The width plays no part, since a command word has
one format (R51) and the bits above the width are zero. Log entry 7. -/
def decodeTableWord (_nbits w : Nat) : Option Instr :=
  match decodeNat w with
  | .ok i => some i
  | .error _ => none

/-- `{OP, DATA}`: the command word with the two fields given (R10, R44). -/
def commandWord (op : Opcode) (data : Byte) : CommandWord := op ++ data

/-- The encoder of R52, extended to the reserved rows by their own `OP` and `DATA` fields (R45). -/
def encode : Instr → CommandWord
  | .init => commandWord 0b00 0x00
  | .byte b => commandWord 0b01 b
  | .read => commandWord 0b10 0x00
  | .reservedOp11 data => commandWord 0b11 data
  | .reservedOp00 data => commandWord 0b00 data
  | .reservedOp10 data => commandWord 0b10 data

end Sys2Proof
end

