-- ==== Sys2Proof/Machine/Operands.lean ====
section
/-! DEFINITION. The operand of READ's output assembly: the two bytes of the accumulator and the value
on the result port (20_memory.md R34, 30_encoding.md R47, 41_commands.md R75). BYTE's operand is the
`DATA` field itself, zero-extended in `byteStep` (R46, R62). -/

namespace Sys2Proof.Machine

/-- `H = (a >> 8) AND 0xFF` (R34, R75). -/
def highByte (a : Word) : Word := (a >>> 8) &&& 0xFF#16

/-- `L = a AND 0xFF` (R34, R75). -/
def lowByte (a : Word) : Word := a &&& 0xFF#16

/-- `L + H * 256`, formed on unbounded naturals (R11) and put on the 16-bit result port (R47). -/
def assembleOutput (h l : Word) : Word := BitVec.ofNat 16 (l.toNat + h.toNat * 256)

/-- The value READ responds with for the accumulator value `a` (R75). -/
def readResult (a : Word) : Word := assembleOutput (highByte a) (lowByte a)

end Sys2Proof.Machine
end

