-- ==== Sys2Proof/Machine/State.lean ====
section
/-! DEFINITION. The machine's state: the accumulator and the fault status the spec gives the engine
(10_state.md R15), and the host's side of its channels, as plain data (30_encoding.md R43). -/

namespace Sys2Proof.Machine

/-- The values the engine writes to the 2-bit fault status register (R18). The code 0b11 is never
written, so it has no constructor (93_implementation_defined.md I5). -/
inductive FaultCode where
  /-- 0b00 `NONE`: no fault has been recorded since reset. -/
  | none
  /-- 0b01 `RESERVED_COMMAND`: a reserved command word was issued (R90). -/
  | reservedCommand
  /-- 0b10 `NOT_INITIALISED`: BYTE or READ was issued while `acc = UNDEF` (R91). -/
  | notInitialised
  deriving DecidableEq, Repr

/-- What reaches the engine from outside: a command word on the command channel (R43), or reset, which
may arrive at any time, between commands (R105) or during one (R106). -/
inductive HostEvent where
  /-- The host issues the command word `w`. -/
  | command (w : CommandWord)
  /-- Reset arrives between commands. -/
  | reset
  /-- Reset arrives while the command of word `w` is in progress. -/
  | resetDuring (w : CommandWord)
  deriving DecidableEq, Repr

/-- The machine. `acc` and `fault` are the engine's whole architectural state (R15); `inbox` and
`responses` are the host's side of the command channel and of the result port (R43, R47). -/
structure State where
  /-- The accumulator: a 16-bit value, or `none` for `UNDEF`, a state of the spec's own (R16). -/
  acc : Option Word
  /-- The fault status register (R18). -/
  fault : FaultCode
  /-- DESIGN CHOICE (log entries 1 and 2): the events that have not reached the engine yet, oldest
  first. The model's own field: what the host is about to issue. -/
  inbox : List HostEvent
  /-- DESIGN CHOICE (log entry 3): the values READ has delivered, oldest first. The model's own
  field: the first part of the observation of a run (R13, R114). -/
  responses : List Word
  deriving DecidableEq, Repr

/-- Why the machine would stop. DEDUCED (log entry 5): nothing in the spec stops it. Every fault the
spec names is recorded in the fault status and the step goes on (R93, R94), so this type has no
constructor: no meaning can raise one, which is safe. -/
inductive Fault where
  deriving DecidableEq, Repr

/-- Why an instruction would be without a meaning. -/
inductive Refusal where
  /-- Raised by an arm of `exec` for an instruction not modelled yet; safe, since nothing is claimed
  of a refused instruction. No arm raises it: every row of the table has its meaning. -/
  | notModelled (mnemonic : String)
  deriving DecidableEq, Repr

/-- The machine right after reset (R26, R105): `acc = UNDEF`, `fault = NONE`. Nothing has been issued
and nothing has been delivered (DESIGN CHOICE, log entries 1 and 3). -/
def State.reset : State where
  acc := Option.none
  fault := FaultCode.none
  inbox := []
  responses := []

end Sys2Proof.Machine
end

