-- ==== Sys2Proof/Machine/Ops.lean ====
section
/-! DEFINITION. The named operations over the state that every meaning is written from: the accumulator's
accessors, recording a fault (60_exceptions.md R93), responding (30_encoding.md R47), reset
(70_reset_and_hazards.md R105), and the host's side of the command channel (30_encoding.md R43). -/

namespace Sys2Proof.Machine

/-- What performing a command answers. -/
abbrev Result := Host.Outcome State Fault Refusal

/-- `acc <- v` (R12). -/
def State.setAcc (s : State) (v : Word) : State := { s with acc := some v }

/-- `fault <- code` (R12, R18). -/
def State.setFault (s : State) (f : FaultCode) : State := { s with fault := f }

/-- `respond(v)` delivers `v` to the host on the result port (R12, R47). -/
def State.respond (s : State) (v : Word) : State := { s with responses := s.responses ++ [v] }

/-- The events still to come, replaced. -/
def State.setInbox (s : State) (es : List HostEvent) : State := { s with inbox := es }

/-- TAKING A FAULT, `raise F(info)` of R93: the code is recorded, `acc` is left as it is, nothing is
responded, and there is no vector, no saved state and no mode change. -/
def raise (f : FaultCode) (s : State) : Result := .next (s.setFault f)

/-- The first check of R77: once a fault has been recorded no command is performed, and the word leaves
the state unchanged and returns no response (R94). DEDUCED (log entry 15): each meaning makes the
check through this operation, so that it holds of `exec` as well as of `step`. -/
def performing (s : State) (command : State → Result) : Result :=
  if s.fault = FaultCode.none then command s else .next s

/-- A command that needs the accumulator's value: `acc = UNDEF` raises `NotInitialised` (R73, R75, R91). -/
def withAcc (s : State) (use : Word → Result) : Result :=
  match s.acc with
  | some a => use a
  | none => raise .notInitialised s

/-- LEAVING A FAULTED STATE: reset is the only way out (R97). `acc <- UNDEF`, `fault <- NONE`
(R105). DESIGN CHOICE (log entries 2 and 3): what the host has yet to issue and what it has already
received are the host's, and stay. -/
def applyReset (s : State) : State := { s with acc := Option.none, fault := FaultCode.none }

/-- The next event to reach the engine, and the state once it has left the channel. -/
def takeEvent (s : State) : Option (HostEvent × State) :=
  match s.inbox with
  | [] => none
  | e :: rest => some (e, s.setInbox rest)

/-- The host issues command words: they reach the engine in this order, after what was issued before
them (R43). -/
def State.issue (s : State) (ws : List CommandWord) : State :=
  s.setInbox (s.inbox ++ ws.map .command)

/-- The word is made the next to reach the engine. -/
def State.issueNext (s : State) (w : CommandWord) : State :=
  s.setInbox (.command w :: s.inbox)

end Sys2Proof.Machine
end

