-- ==== Sys2Proof/Machine/Commands.lean ====
section
/-! DEFINITION. The meanings of INIT, BYTE and READ (41_commands.md R71, R73, R75). -/

namespace Sys2Proof.Machine

/-- INIT: `acc <- 0xFFFF`, whatever `acc` was (R71). -/
def execInit (s : State) : Result :=
  performing s fun s => .next (s.setAcc initValue)

/-- BYTE `b`: `acc <- byteStep(acc, b)`; `NotInitialised` when `acc = UNDEF` (R73). -/
def execByte (b : Byte) (s : State) : Result :=
  performing s fun s => withAcc s fun a => .next (s.setAcc (byteStep a b))

/-- READ: respond `L + H * 256`, with no state written; `NotInitialised` when `acc = UNDEF` (R75). -/
def execRead (s : State) : Result :=
  performing s fun s => withAcc s fun a => .next (s.respond (readResult a))

end Sys2Proof.Machine
end

