-- ==== Sys2Proof/Machine/Reserved.lean ====
section
/-! DEFINITION. The meanings of the reserved words: each raises `ReservedCommand` before any command
semantics (30_encoding.md R49, 60_exceptions.md R90). The engine keeps no copy of the word. A term that is
not well formed stands for no word and never reaches these (log entry 14). -/

namespace Sys2Proof.Machine

/-- A reserved word with `OP = 0b11` raises `ReservedCommand` (R49, R90). -/
def execReservedOp11 (_data : Byte) (s : State) : Result :=
  performing s (raise .reservedCommand)

/-- A reserved word with `OP = 0b00`, `DATA != 0x00`, raises `ReservedCommand` (R49, R90). -/
def execReservedOp00 (_data : Byte) (s : State) : Result :=
  performing s (raise .reservedCommand)

/-- A reserved word with `OP = 0b10`, `DATA != 0x00`, raises `ReservedCommand` (R49, R90). -/
def execReservedOp10 (_data : Byte) (s : State) : Result :=
  performing s (raise .reservedCommand)

end Sys2Proof.Machine
end

