-- ==== Sys2Proof/Machine/Dispatch.lean ====
section
/-! DEFINITION. One arm per constructor of `Instr`, each a direct call of its meaning. -/

namespace Sys2Proof.Machine

def exec (i : Instr) (s : State) : Host.Outcome State Fault Refusal :=
  match i with
  | .init => Sys2Proof.Machine.execInit s
  | .byte b => Sys2Proof.Machine.execByte b s
  | .read => Sys2Proof.Machine.execRead s
  | .reservedOp11 data => Sys2Proof.Machine.execReservedOp11 data s
  | .reservedOp00 data => Sys2Proof.Machine.execReservedOp00 data s
  | .reservedOp10 data => Sys2Proof.Machine.execReservedOp10 data s

end Sys2Proof.Machine
end

