-- ==== Sys2Proof/Machine/Step.lean ====
section
/-! DEFINITION. One step: the next event reaches the engine, which performs the command (41_commands.md
R77) or resets (70_reset_and_hazards.md R105, R106). These are its only transitions. -/

namespace Sys2Proof.Machine

/-- The engine's step for one command word, `step(state, w)` of R77: a total function of the state
and the word. -/
def commandStep (s : State) (w : CommandWord) : Host.Outcome State Fault Refusal :=
  exec (decode w) s

/-- One step of the machine. A command word leaves the channel and is performed (R41, R77); a reset
resets, and a command in progress at that moment is abandoned whole (R106). With nothing in the channel
the engine is idle and keeps its state (R104; DEDUCED, log entry 6). -/
def step (s : State) : Host.Outcome State Fault Refusal :=
  match takeEvent s with
  | none => .next s
  | some (.command w, t) => commandStep t w
  | some (.reset, t) => .next (applyReset t)
  | some (.resetDuring _, t) => .next (applyReset t)

/-- `s` with the opcode table's number `w`, never masked, as the next command word to reach the engine; a
number of 1024 or more, whatever width it is given in, is refused by the transcriber and issues nothing
(R57; log entries 1 and 7). -/
def State.withFetchWord (s : State) (_nbits w : Nat) : State :=
  match transcribe w with
  | .ok c => s.issueNext c
  | .error _ => s

end Sys2Proof.Machine
end

