-- ==== Sys2Proof/Machine/Flags.lean ====
section
/-! DEFINITION. The engine has no flags and no condition codes (10_state.md R21); its one status register
is the fault status, shown on the status port (10_state.md R18, 30_encoding.md R48). -/

namespace Sys2Proof.Machine

/-- The 2-bit code of a fault status (R18, R93). -/
def faultBits : FaultCode → BitVec 2
  | .none => 0b00
  | .reservedCommand => 0b01
  | .notInitialised => 0b10

/-- The fault status a 2-bit code stands for. 0b11 is reserved, so a transcriber refuses it
(93_implementation_defined.md I5). -/
def faultOfBits (b : BitVec 2) : Option FaultCode :=
  if b = 0b00 then some .none
  else if b = 0b01 then some .reservedCommand
  else if b = 0b10 then some .notInitialised
  else none

/-- The status port `fault_o[1:0]`, which always shows the fault status register (R48). -/
def statusPort (s : State) : BitVec 2 := faultBits s.fault

end Sys2Proof.Machine
end

