-- ==== Sys2Proof/Machine/Run.lean ====
section
/-! DEFINITION. The run of a program and its observation (00_scope.md R13, 70_reset_and_hazards.md R114,
R115). A program is a finite sequence of command words (30_encoding.md R43). -/

namespace Sys2Proof.Machine

/-- Command words performed one after another, each by `step(state, w)` of R77. -/
def performWords : List CommandWord → State → Host.Outcome State Fault Refusal
  | [], s => .next s
  | w :: ws, s =>
    match commandStep s w with
    | .next t => performWords ws t
    | .fault r => .fault r
    | .refused r => .refused r

/-- What a host sees of a run (R13, R114): the READ responses in order, the final `acc`, the final
`fault`. -/
structure Observation where
  responses : List Word
  acc : Option Word
  fault : FaultCode
  deriving DecidableEq, Repr

/-- The observation of a state. -/
def State.observe (s : State) : Observation :=
  { responses := s.responses, acc := s.acc, fault := s.fault }

/-- How a run ends (R114): after its last word with no fault recorded, or at the first word whose step
records a fault, given by its index in the program. -/
inductive RunEnd where
  | successful
  | faulted (index : Nat)
  deriving DecidableEq, Repr

/-- A finished run: how it ended, and the state it ended in. -/
structure RunResult where
  ending : RunEnd
  final : State
  deriving DecidableEq, Repr

/-- The run of the words that stand at index `k` and after it: it ends at the first word whose step
leaves a fault recorded, and the words after that one are not performed (R94, R114). DESIGN CHOICE (log
entry 16), for a state that already holds a fault, of which R114 does not speak: a run of at least one word
ends faulted at index `k`, and a run of no words ends successful. -/
def runFrom : List CommandWord → Nat → State → Host.Outcome RunResult Fault Refusal
  | [], _, s => .next { ending := .successful, final := s }
  | w :: ws, k, s =>
    match commandStep s w with
    | .next t =>
      if t.fault = FaultCode.none then runFrom ws (k + 1) t
      else .next { ending := .faulted k, final := t }
    | .fault r => .fault r
    | .refused r => .refused r

/-- The run of a program from reset (R114). -/
def runProgram (p : List CommandWord) : Host.Outcome RunResult Fault Refusal :=
  runFrom p 0 State.reset

end Sys2Proof.Machine
end

