-- ==== Sys2Proof/Machine/HostCall.lean ====
section
/-! DEFINITION. The checksum call `crc16` as the host performs it, and the check at the boundary where a
host value becomes an 8-bit byte (42_host_call.md R80, R81; 60_exceptions.md R92). -/

namespace Sys2Proof.Machine

/-- The host-level error `InvalidInput` (R81, R92): the index of the first element outside 0 to 255.
It is never written to the engine's fault status. -/
structure InvalidInput where
  index : Nat
  deriving DecidableEq, Repr

/-- A host value as a `DATA` field: exactly the values 0 to 255, never masked, never truncated (R81). -/
def hostByte (n : Nat) : Option Byte :=
  if n ≤ 255 then some (BitVec.ofNat 8 n) else none

/-- All the elements as bytes, or `InvalidInput` at the first that is none; `k` is the index of the
list's first element (R81). -/
def collectBytes : Nat → List (Option Byte) → Except InvalidInput (List Byte)
  | _, [] => .ok []
  | k, none :: _ => .error { index := k }
  | k, some b :: rest =>
    match collectBytes (k + 1) rest with
    | .ok bs => .ok (b :: bs)
    | .error e => .error e

/-- The check of the whole input before any command is issued (R81). -/
def checkInput (x : List Nat) : Except InvalidInput (List Byte) :=
  collectBytes 0 (x.map hostByte)

/-- One BYTE command per byte, in order (R80, R55). -/
def byteWords (bs : List Byte) : List CommandWord := bs.map fun b => encode (.byte b)

/-- The commands of a call: INIT, one BYTE per byte, READ (R80, R55). -/
def callWords (bs : List Byte) : List CommandWord :=
  encode .init :: (byteWords bs ++ [encode .read])

/-- What a call leaves: the value the READ returned, and the state. DESIGN CHOICE (log entry 12): the value
is absent when the READ was not performed, which happens only when a fault stood before the call. -/
structure CallResult where
  value : Option Word
  state : State
  deriving DecidableEq, Repr

/-- The response delivered between two states, if one was. -/
def responseSince (before after : State) : Option Word :=
  (after.responses.drop before.responses.length).head?

/-- `crc16(x)` (R80): check the whole input, then issue the call's commands and nothing else (R82), and
return what READ responds. An out-of-range element issues no command (R81). DESIGN CHOICE (log entry 18): when
the channel still holds events issued before the call, the call's words are performed at once, ahead of them,
and `inbox` is left as it was. -/
def crc16 (x : List Nat) (s : State) :
    Except InvalidInput (Host.Outcome CallResult Fault Refusal) :=
  match checkInput x with
  | .error e => .error e
  | .ok bs =>
    match performWords (callWords bs) s with
    | .next t => .ok (.next { value := responseSince s t, state := t })
    | .fault r => .ok (.fault r)
    | .refused r => .ok (.refused r)

end Sys2Proof.Machine
end

