-- ==== Sys2Proof/Machine/Assembler.lean ====
section
/-! DEFINITION. The assembly syntax of the spec's listings and its pseudo-instructions (30_encoding.md
R54, R55). Where R54 is silent on spelling, and on the code a character has, the choices are DESIGN CHOICEs of
log entries 10, 11 and 17. -/

namespace Sys2Proof.Machine

/-- Why a line is not assembled. -/
inductive AsmError where
  /-- The line has none of the forms of R54 and R55. -/
  | badSyntax
  /-- An immediate outside 0 to 255, by its index in the operand list (R54, R55). -/
  | invalidInput (e : InvalidInput)
  deriving DecidableEq, Repr

/-- The tokens of a line. -/
inductive Token where
  /-- A mnemonic or a number, as it is spelt. -/
  | word (cs : List Char)
  /-- A single-quoted character. -/
  | char (c : Char)
  /-- A double-quoted string. -/
  | str (cs : List Char)
  | openBracket
  | closeBracket
  | comma
  deriving DecidableEq, Repr

/-- The word gathered so far, its characters reversed, put before the tokens that follow it. -/
def flushWord (pending : List Char) (ts : List Token) : List Token :=
  if pending = [] then ts else .word pending.reverse :: ts

/-- What the lexer is inside of. -/
inductive LexMode where
  /-- Nothing, or a word with these characters so far, reversed. -/
  | plain (pending : List Char)
  /-- A double-quoted string with these characters so far, reversed. -/
  | string (pending : List Char)
  /-- Just behind an opening single quote. -/
  | quote
  /-- Just behind a single-quoted character, before its closing quote. -/
  | quoted (c : Char)
  deriving DecidableEq, Repr

/-- A character between tokens (log entry 10). -/
def isBlank (c : Char) : Bool := c == ' ' || c == '\t' || c == '\r'

/-- A token put before the tokens of the rest of a line, if that rest could be read. -/
def consToken (t : Token) : Option (List Token) → Option (List Token)
  | some ts => some (t :: ts)
  | none => none

/-- The word gathered so far put before the tokens of the rest of a line. -/
def endWord (pending : List Char) : Option (List Token) → Option (List Token)
  | some ts => some (flushWord pending ts)
  | none => none

/-- The double quote, code 34. -/
def doubleQuote : Char := Char.ofNat 34

/-- The single quote, code 39. -/
def singleQuote : Char := Char.ofNat 39

/-- The tokens of a line, `none` when a quote is left open. `;` begins a comment that runs to the end of
the line (R54), except inside a character or a string (log entry 10). -/
def lexLine : LexMode → List Char → Option (List Token)
  | .plain pending, [] => some (flushWord pending [])
  | .string _, [] => none
  | .quote, [] => none
  | .quoted _, [] => none
  | .quote, c :: rest => lexLine (.quoted c) rest
  | .quoted d, c :: rest =>
    if c = singleQuote then consToken (.char d) (lexLine (.plain []) rest) else none
  | .string pending, c :: rest =>
    if c = doubleQuote then consToken (.str pending.reverse) (lexLine (.plain []) rest)
    else lexLine (.string (c :: pending)) rest
  | .plain pending, c :: rest =>
    if c = ';' then some (flushWord pending [])
    else if isBlank c then endWord pending (lexLine (.plain []) rest)
    else if c = '[' then endWord pending (consToken .openBracket (lexLine (.plain []) rest))
    else if c = ']' then endWord pending (consToken .closeBracket (lexLine (.plain []) rest))
    else if c = ',' then endWord pending (consToken .comma (lexLine (.plain []) rest))
    else if c = doubleQuote then endWord pending (lexLine (.string []) rest)
    else if c = singleQuote then endWord pending (lexLine .quote rest)
    else lexLine (.plain (c :: pending)) rest

/-- The value of a decimal digit. -/
def decimalDigit (c : Char) : Option Nat :=
  if 48 ≤ c.toNat ∧ c.toNat ≤ 57 then some (c.toNat - 48) else none

/-- The value of a hexadecimal digit, in either case. -/
def hexDigit (c : Char) : Option Nat :=
  if 48 ≤ c.toNat ∧ c.toNat ≤ 57 then some (c.toNat - 48)
  else if 65 ≤ c.toNat ∧ c.toNat ≤ 70 then some (c.toNat - 55)
  else if 97 ≤ c.toNat ∧ c.toNat ≤ 102 then some (c.toNat - 87)
  else none

/-- The number the digits spell after the digits already read, `none` at a character that is no digit. -/
def digitsFrom (base : Nat) (digit : Char → Option Nat) : Nat → List Char → Option Nat
  | n, [] => some n
  | n, c :: rest =>
    match digit c with
    | some d => digitsFrom base digit (n * base + d) rest
    | none => none

/-- A nonempty run of digits as a number. -/
def digits (base : Nat) (digit : Char → Option Nat) (cs : List Char) : Option Nat :=
  if cs = [] then none else digitsFrom base digit 0 cs

/-- An immediate as it is written: a natural number, or a negative one, which is outside 0 to 255
whatever its size (R54, R81; log entry 11). -/
inductive Imm where
  | value (n : Nat)
  | negative
  deriving DecidableEq, Repr

/-- A number in decimal, or in hexadecimal with the `0x` prefix (R54). DESIGN CHOICE (log entry 11): a minus
sign is read before decimal digits only; before a hexadecimal number it is an error of syntax. -/
def parseNumber (cs : List Char) : Option Imm :=
  match cs with
  | '0' :: 'x' :: hex => (digits 16 hexDigit hex).map .value
  | '-' :: dec => (digits 10 decimalDigit dec).map fun _ => .negative
  | _ => (digits 10 decimalDigit cs).map .value

/-- An `<imm8>`: a number, or a character that stands for its code (R54). DESIGN CHOICE (log entry 17): the
code is the Unicode scalar value; the spec states no encoding beyond ASCII (91_not_in_source.md N9). -/
def parseImm : Token → Option Imm
  | .word cs => parseNumber cs
  | .char c => some (.value c.toNat)
  | .str _ => none
  | .openBracket => none
  | .closeBracket => none
  | .comma => none

/-- The immediate as a `DATA` field; one outside 0 to 255 is none (R54). -/
def Imm.toByte : Imm → Option Byte
  | .value n => hostByte n
  | .negative => none

/-- The elements after the first of a bracketed list, up to its closing bracket, which ends the line. -/
def parseMore : List Token → Option (List Imm)
  | [.closeBracket] => some []
  | .comma :: t :: rest =>
    match parseImm t, parseMore rest with
    | some e, some es => some (e :: es)
    | _, _ => none
  | _ => none

/-- The operand of BYTES and CRC16: a double-quoted string, whose elements are character codes, or a
bracketed list (R55). DESIGN CHOICE (log entry 17): a character's code is its Unicode scalar value. -/
def parseElements : List Token → Option (List Imm)
  | [.str cs] => some (cs.map fun c => .value c.toNat)
  | [.openBracket, .closeBracket] => some []
  | .openBracket :: t :: rest =>
    match parseImm t, parseMore rest with
    | some e, some es => some (e :: es)
    | _, _ => none
  | _ => none

/-- A line of assembly, read but not yet encoded: a command or a pseudo-instruction (R54, R55). -/
inductive AsmLine where
  | blank
  | init
  | byte (e : Imm)
  | read
  | bytes (es : List Imm)
  | crc16 (es : List Imm)
  deriving DecidableEq, Repr

/-- A letter in its capital form, any other character as it is: mnemonics are not case-sensitive (R54). -/
def upperCase (c : Char) : Char :=
  if 97 ≤ c.toNat ∧ c.toNat ≤ 122 then Char.ofNat (c.toNat - 32) else c

/-- The line that tokens spell (R54, R55). -/
def parseTokens : List Token → Option AsmLine
  | [] => some .blank
  | .word m :: operands =>
    let mnemonic := m.map upperCase
    if mnemonic = ['I', 'N', 'I', 'T'] then
      if operands = [] then some .init else none
    else if mnemonic = ['R', 'E', 'A', 'D'] then
      if operands = [] then some .read else none
    else if mnemonic = ['B', 'Y', 'T', 'E'] then
      match operands with
      | [t] => (parseImm t).map .byte
      | _ => none
    else if mnemonic = ['B', 'Y', 'T', 'E', 'S'] then (parseElements operands).map .bytes
    else if mnemonic = ['C', 'R', 'C', '1', '6'] then (parseElements operands).map .crc16
    else none
  | _ => none

/-- The elements of an operand as bytes, all of them checked before any word is emitted (R55). -/
def immBytes (es : List Imm) : Except InvalidInput (List Byte) :=
  collectBytes 0 (es.map Imm.toByte)

/-- The command words a line stands for; a pseudo-instruction expands to real commands (R55). -/
def AsmLine.expand : AsmLine → Except InvalidInput (List CommandWord)
  | .blank => .ok []
  | .init => .ok [encode .init]
  | .read => .ok [encode .read]
  | .byte e =>
    match immBytes [e] with
    | .ok bs => .ok (byteWords bs)
    | .error err => .error err
  | .bytes es =>
    match immBytes es with
    | .ok bs => .ok (byteWords bs)
    | .error err => .error err
  | .crc16 es =>
    match immBytes es with
    | .ok bs => .ok (callWords bs)
    | .error err => .error err

/-- One line of text, assembled. -/
def assembleLine (cs : List Char) : Except AsmError (List CommandWord) :=
  match lexLine (.plain []) cs with
  | none => .error .badSyntax
  | some ts =>
    match parseTokens ts with
    | none => .error .badSyntax
    | some l =>
      match l.expand with
      | .ok ws => .ok ws
      | .error e => .error (.invalidInput e)

/-- The lines of a text; `pending` holds the current line's characters, reversed. -/
def splitLines : List Char → List Char → List (List Char)
  | pending, [] => [pending.reverse]
  | pending, c :: rest =>
    if c = '\n' then pending.reverse :: splitLines [] rest else splitLines (c :: pending) rest

/-- A text that is not assembled: the index of the first line in error, and the error. -/
structure AsmFailure where
  line : Nat
  error : AsmError
  deriving DecidableEq, Repr

/-- The lines from index `k` on, assembled in order; a line in error leaves no program. -/
def assembleLines : Nat → List (List Char) → Except AsmFailure (List CommandWord)
  | _, [] => .ok []
  | k, l :: rest =>
    match assembleLine l with
    | .error e => .error { line := k, error := e }
    | .ok ws =>
      match assembleLines (k + 1) rest with
      | .error e => .error e
      | .ok more => .ok (ws ++ more)

/-- The program an assembly text stands for, one command per line (R54). -/
def assemble (text : List Char) : Except AsmFailure (List CommandWord) :=
  assembleLines 0 (splitLines [] text)

end Sys2Proof.Machine
end

