-- ==== Sys2Proof/Machine/Engines.lean ====
section
/-! DEFINITION. Several engines side by side, sharing nothing: independent copies of the state
(20_memory.md R41, 60_exceptions.md R102). DEDUCED (log entry 13). -/

namespace Sys2Proof.Machine

/-- Several engines, each with its own state and its own host channels (R41). -/
abbrev Engines := List State

/-- The engine of index `k` takes a step; an index with no engine changes nothing. -/
def stepEngine : Nat → Engines → Host.Outcome Engines Fault Refusal
  | _, [] => .next []
  | 0, s :: rest =>
    match step s with
    | .next t => .next (t :: rest)
    | .fault r => .fault r
    | .refused r => .refused r
  | k + 1, s :: rest =>
    match stepEngine k rest with
    | .next ts => .next (s :: ts)
    | .fault r => .fault r
    | .refused r => .refused r

end Sys2Proof.Machine
end

