-- ==== Sys2Proof/Safety.lean ====
section
/-! DEFINITION. What counts as a safe run, in the terms the statements use: no fault recorded
(60_exceptions.md R94), legal words only (30_encoding.md R49), and the invariant of the fault status. -/

namespace Sys2Proof.Machine

/-- No fault has been recorded: the engine performs commands (R77, R94). -/
abbrev State.running (s : State) : Prop := s.fault = FaultCode.none

/-- The command is one of the 766 reserved words of R49. -/
def reservedInstr : Instr → Bool
  | .init => false
  | .byte _ => false
  | .read => false
  | .reservedOp11 _ => true
  | .reservedOp00 _ => true
  | .reservedOp10 _ => true

/-- The command needs a defined accumulator: BYTE and READ (R91). -/
def needsAcc : Instr → Bool
  | .init => false
  | .byte _ => true
  | .read => true
  | .reservedOp11 _ => false
  | .reservedOp00 _ => false
  | .reservedOp10 _ => false

/-- The word is reserved (R49). -/
def reservedWord (w : CommandWord) : Bool := reservedInstr (decode w)

/-- What a recorded fault says of the accumulator: `NOT_INITIALISED` is recorded only while
`acc = UNDEF`, and no command performed after it could give `acc` a value (R91, R93, R94). -/
abbrev FaultConsistent (s : State) : Prop := s.fault = .notInitialised → s.acc = none

end Sys2Proof.Machine
end

