-- ==== Sys2Proof/Certificates/Slice0/Obligations.lean ====
section
/-! DEFINITION. The statements for the provers. Each docstring names the rule of spec/ a statement
formalises; one that rests on the model's own choices names the log entry. -/

open Sys2Proof Sys2Proof.Machine

/-! ## Encoding (30_encoding.md) -/

/-- R45, R52: the decoder on every one of the 1024 words, by the numbers `OP = w / 256` and
`DATA = w mod 256`; the encoder's words; each is the inverse of the other. -/
def Obligations.DecodeAndEncodeAreInverse : Prop :=
  (∀ w : CommandWord,
    (w.toNat / 256 = 0 → w.toNat % 256 = 0 → decode w = .init) ∧
    (w.toNat / 256 = 0 → w.toNat % 256 ≠ 0 →
      decode w = .reservedOp00 (BitVec.ofNat 8 (w.toNat % 256))) ∧
    (w.toNat / 256 = 1 → decode w = .byte (BitVec.ofNat 8 (w.toNat % 256))) ∧
    (w.toNat / 256 = 2 → w.toNat % 256 = 0 → decode w = .read) ∧
    (w.toNat / 256 = 2 → w.toNat % 256 ≠ 0 →
      decode w = .reservedOp10 (BitVec.ofNat 8 (w.toNat % 256))) ∧
    (w.toNat / 256 = 3 → decode w = .reservedOp11 (BitVec.ofNat 8 (w.toNat % 256))) ∧
    (decode w).wf = true ∧
    encode (decode w) = w) ∧
  (∀ i : Instr, i.wf = true → decode (encode i) = i) ∧
  encode .init = 0x000#10 ∧
  (∀ b : Byte, (encode (.byte b)).toNat = 0x100 + b.toNat) ∧
  encode .read = 0x200#10

/-- R53: the spec's seven words, bit by bit from its table, decode to the commands it names. -/
def Obligations.EncodingExamplesDecode : Prop :=
  decode 0b0000000000#10 = .init ∧
  decode 0b0101101000#10 = .byte 0x68#8 ∧
  decode 0b0111111111#10 = .byte 0xFF#8 ∧
  decode 0b0100000000#10 = .byte 0x00#8 ∧
  decode 0b1000000000#10 = .read ∧
  decode 0b1100000000#10 = .reservedOp11 0x00#8 ∧
  decode 0b0000000001#10 = .reservedOp00 0x01#8

/-- R49: which words are reserved, how many there are of each kind, how many words are legal, and that a
reserved word has no meaning beyond the fault. -/
def Obligations.ReservedWordsAreExactlyThe766 : Prop :=
  (∀ w : CommandWord, reservedWord w = true ↔
    (w.toNat / 256 = 3 ∨ (w.toNat / 256 = 0 ∧ w.toNat % 256 ≠ 0) ∨
      (w.toNat / 256 = 2 ∧ w.toNat % 256 ≠ 0))) ∧
  ((List.range 1024).filter fun n =>
    reservedWord (BitVec.ofNat 10 n) && n / 256 == 3).length = 256 ∧
  ((List.range 1024).filter fun n =>
    reservedWord (BitVec.ofNat 10 n) && n / 256 == 0).length = 255 ∧
  ((List.range 1024).filter fun n =>
    reservedWord (BitVec.ofNat 10 n) && n / 256 == 2).length = 255 ∧
  ((List.range 1024).filter fun n => reservedWord (BitVec.ofNat 10 n)).length = 766 ∧
  ((List.range 1024).filter fun n => !reservedWord (BitVec.ofNat 10 n)).length = 258 ∧
  (∀ (w : CommandWord) (s : State), reservedWord w = true → s.fault = .none →
    commandStep s w = .next { s with fault := .reservedCommand })

/-- R57: a natural below 1024 is a command word and decodes as the word of that number; one of 1024 or
more is refused before decoding. -/
def Obligations.WideNaturalsAreRefused : Prop :=
  ∀ n : Nat,
    (n < 1024 → ∃ w : CommandWord, w.toNat = n ∧ transcribe n = .ok w ∧
      decodeNat n = .ok (decode w)) ∧
    (1024 ≤ n → transcribe n = .error (.widerThanFormat n) ∧
      decodeNat n = .error (.widerThanFormat n))

/-- From R57, with the model's choice of numbering and loading (log entries 1 and 7): a number of the opcode
table that is a command word decodes to that word's command, and `withFetchWord` makes it the very next
command performed; a number of 1024 or more, in whatever width, decodes to nothing and issues nothing. That a
faulted engine's word, which is not performed, leaves the channel as well is the model's choice (log entry 4). -/
def Obligations.TableWordIsTheNextCommand : Prop :=
  ∀ (s : State) (nbits : Nat),
    (∀ w : CommandWord,
      decodeTableWord nbits w.toNat = some (decode w) ∧
      step (s.withFetchWord nbits w.toNat) = exec (decode w) s) ∧
    (∀ n : Nat, 1024 ≤ n → decodeTableWord nbits n = none ∧ s.withFetchWord nbits n = s)

/-! ## The datapath (40_feedback_loop.md) -/

/-- R59: a round is an unsigned halving, with 0xA001 XORed in when the number was odd; with the rule's
corner cases and its worked example. -/
def Obligations.RoundHalvesAndFeedsBack : Prop :=
  (∀ a : Word, (crcRound a).toNat =
    if a.toNat % 2 = 1 then a.toNat / 2 ^^^ 0xA001 else a.toNat / 2) ∧
  crcRound 0x0000#16 = 0x0000#16 ∧
  crcRound 0x0001#16 = 0xA001#16 ∧
  crcRound 0x8000#16 = 0x4000#16 ∧
  crcRound 0xFFFF#16 = 0xDFFE#16 ∧
  crcRound 0xC001#16 = 0xC001#16 ∧
  crcRound 0xFF97#16 = 0xDFCA#16

/-- R60: the round as a netlist, output bit by output bit. -/
def Obligations.RoundNetlist : Prop :=
  ∀ a : Word,
    (crcRound a).getLsbD 15 = a.getLsbD 0 ∧
    (crcRound a).getLsbD 14 = a.getLsbD 15 ∧
    (crcRound a).getLsbD 13 = (a.getLsbD 14 ^^ a.getLsbD 0) ∧
    (∀ i : Nat, 1 ≤ i → i ≤ 12 → (crcRound a).getLsbD i = a.getLsbD (i + 1)) ∧
    (crcRound a).getLsbD 0 = (a.getLsbD 1 ^^ a.getLsbD 0)

/-- R62: a byte step is the XOR of the zero-extended byte and then exactly eight rounds; with the rule's
corner cases and its worked example. -/
def Obligations.ByteStepIsXorThenEightRounds : Prop :=
  (∀ (a : Word) (b : Byte),
    byteStep a b = Nat.iterate crcRound 8 (a ^^^ BitVec.ofNat 16 b.toNat)) ∧
  byteStep 0x0000#16 0x00#8 = 0x0000#16 ∧
  byteStep 0xFFFF#16 0xFF#8 = 0x00FF#16 ∧
  byteStep 0xFFFF#16 0x00#8 = 0x40BF#16 ∧
  byteStep 0x00FF#16 0xFF#8 = 0x0000#16 ∧
  byteStep 0xC001#16 0x00#8 = 0xC001#16 ∧
  byteStep 0xFFFF#16 0x68#8 = 0xAEBE#16

/-- R33, its first paragraph: bit `i` of the byte meets bit `i` of the accumulator before the rounds, and
bits 15 to 8 are not changed by the XOR. -/
def Obligations.ByteEntersTheLowEightBits : Prop :=
  ∀ (a : Word) (b : Byte), ∃ x : Word,
    byteStep a b = step8 x ∧
    (∀ i : Nat, i < 8 → x.getLsbD i = (a.getLsbD i ^^ b.getLsbD i)) ∧
    (∀ i : Nat, 8 ≤ i → i < 16 → x.getLsbD i = a.getLsbD i)

/-- R64: `round` and eight rounds are linear over GF(2), and a byte step is the XOR of the two parts. -/
def Obligations.DatapathIsLinear : Prop :=
  (∀ x y : Word, crcRound (x ^^^ y) = crcRound x ^^^ crcRound y) ∧
  crcRound 0#16 = 0#16 ∧
  (∀ x y : Word, step8 (x ^^^ y) = step8 x ^^^ step8 y) ∧
  (∀ (a : Word) (b : Byte), byteStep a b = step8 a ^^^ step8 (b.setWidth 16))

/-- R65: a round is a bijection with the inverse the rule gives, and so are eight rounds and, for each
byte, the byte step. -/
def Obligations.DatapathIsInvertible : Prop :=
  (∀ a : Word, unround (crcRound a) = a ∧ crcRound (unround a) = a) ∧
  Function.Bijective crcRound ∧
  Function.Bijective step8 ∧
  (∀ b : Byte, Function.Bijective fun a => byteStep a b)

/-- R66: the table form of eight rounds and of a byte step, with the rule's sample entries. -/
def Obligations.TableFormAgrees : Prop :=
  (∀ i : Byte, tableEntry i = step8 (i.setWidth 16)) ∧
  (∀ x : Word, step8 x = (x >>> 8) ^^^ tableEntry ((x &&& 0xFF#16).setWidth 8)) ∧
  (∀ (a : Word) (b : Byte),
    byteStep a b = (a >>> 8) ^^^ tableEntry (((a ^^^ b.setWidth 16) &&& 0xFF#16).setWidth 8)) ∧
  (∀ (a : Word) (b : Byte), byteStep a b = byteStepByTable a b) ∧
  tableEntry 0x00#8 = 0x0000#16 ∧
  tableEntry 0x01#8 = 0xC0C1#16 ∧
  tableEntry 0x02#8 = 0xC181#16 ∧
  tableEntry 0x03#8 = 0x0140#16 ∧
  tableEntry 0x68#8 = 0xEE01#16 ∧
  tableEntry 0x80#8 = 0xA001#16 ∧
  tableEntry 0xFF#8 = 0x4040#16

/-- R67: distinct bytes give distinct byte steps from 0xFFFF and distinct one-byte checksums. -/
def Obligations.DistinctBytesDistinctChecksums : Prop :=
  ∀ b₁ b₂ : Byte, b₁ ≠ b₂ →
    byteStep 0xFFFF#16 b₁ ≠ byteStep 0xFFFF#16 b₂ ∧ checksum [b₁] ≠ checksum [b₂]

/-- R68: eight rounds have exactly the fixed points 0x0000 and 0xC001, both fixed by one round; a zero byte
at the end leaves a checksum as it is exactly at those two; with the rule's examples. -/
def Obligations.TrailingZeroByteFixedPoints : Prop :=
  (∀ a : Word, step8 a = a ↔ a = 0x0000#16 ∨ a = 0xC001#16) ∧
  crcRound 0x0000#16 = 0x0000#16 ∧
  crcRound 0xC001#16 = 0xC001#16 ∧
  (∀ x : List Byte, checksum (x ++ [0x00#8]) = checksum x ↔
    checksum x = 0x0000#16 ∨ checksum x = 0xC001#16) ∧
  checksum [0xFF#8, 0xFF#8] = 0x0000#16 ∧
  checksum [0xFF#8, 0xFF#8, 0x00#8] = 0x0000#16 ∧
  checksum [0xFE#8, 0x3F#8] = 0xC001#16

/-- R70: the fold's two equations, folding over a concatenation, the checksum as a fold, and the accumulator
after the first `k` BYTE commands of a call. -/
def Obligations.FoldComposes : Prop :=
  (∀ a : Word, crcFold a [] = a) ∧
  (∀ (a : Word) (b : Byte) (rest : List Byte),
    crcFold a (b :: rest) = crcFold (byteStep a b) rest) ∧
  (∀ (a : Word) (x y : List Byte), crcFold a (x ++ y) = crcFold (crcFold a x) y) ∧
  (∀ x : List Byte, checksum x = crcFold 0xFFFF#16 x) ∧
  (∀ (s : State) (x : List Byte) (k : Nat), s.fault = .none →
    performWords (encode .init :: byteWords (x.take k)) s =
      .next { s with acc := some (crcFold 0xFFFF#16 (x.take k)) })

/-- From R32, R64 and R68: two different bytes that stand side by side never change places unnoticed, from
whatever accumulator value and whatever bytes follow. -/
def Obligations.AdjacentByteOrderMatters : Prop :=
  ∀ (a : Word) (b₁ b₂ : Byte) (rest : List Byte), b₁ ≠ b₂ →
    crcFold a (b₁ :: b₂ :: rest) ≠ crcFold a (b₂ :: b₁ :: rest)

/-- From R65 and R70: two inputs that differ in one byte have different checksums. -/
def Obligations.OneChangedByteChangesTheChecksum : Prop :=
  ∀ (x y : List Byte) (b₁ b₂ : Byte), b₁ ≠ b₂ →
    checksum (x ++ b₁ :: y) ≠ checksum (x ++ b₂ :: y)

/-! ## The commands (41_commands.md) -/

/-- R71: INIT's word, its effect from any accumulator, that it is idempotent, and that it is not performed
once a fault has been recorded. The equation says the frame: nothing but `acc` changes. -/
def Obligations.InitLoadsInitialValue : Prop :=
  encode .init = 0x000#10 ∧
  ∀ s : State,
    (s.fault = .none → exec .init s = .next { s with acc := some 0xFFFF#16 }) ∧
    (s.fault ≠ .none → exec .init s = .next s) ∧
    (∀ t : State, exec .init s = .next t → exec .init t = .next t)

/-- R72: the state after INIT does not depend on the accumulator before it, and neither does what any
command words after it leave. -/
def Obligations.ReinitialisationForgets : Prop :=
  ∀ (s : State) (acc₁ acc₂ : Option Word) (ws : List CommandWord), s.fault = .none →
    performWords (encode .init :: ws) { s with acc := acc₁ } =
      performWords (encode .init :: ws) { s with acc := acc₂ }

/-- R73: BYTE's word, its effect, its fault when `acc = UNDEF`, its corner cases and its worked example. The
equations say the frame: nothing but `acc` changes, or nothing but `fault`. -/
def Obligations.ByteFeedsTheAccumulator : Prop :=
  (∀ b : Byte, (encode (.byte b)).toNat = 0x100 + b.toNat) ∧
  (∀ (s : State) (a : Word) (b : Byte), s.fault = .none → s.acc = some a →
    exec (.byte b) s = .next { s with acc := some (byteStep a b) }) ∧
  (∀ (s : State) (b : Byte), s.fault = .none → s.acc = none →
    exec (.byte b) s = .next { s with fault := .notInitialised }) ∧
  (∀ (s : State) (b : Byte), s.fault ≠ .none → exec (.byte b) s = .next s) ∧
  (∀ (s : State) (a : Word), s.fault = .none → s.acc = some a →
    (exec (.byte 0x00#8) s = .next { s with acc := some (step8 a) } ∧
      (step8 a = a ↔ a = 0x0000#16 ∨ a = 0xC001#16))) ∧
  byteStep 0x00FF#16 0xFF#8 = 0x0000#16 ∧
  byteStep 0xFFFF#16 0xFF#8 = 0x00FF#16 ∧
  byteStep 0x0000#16 0x00#8 = 0x0000#16 ∧
  byteStep 0xFFFF#16 0x68#8 = 0xAEBE#16

/-- R75: READ responds `L + H * 256`, which is the accumulator, and writes no state; it faults and responds
nothing when `acc = UNDEF`. The equations say the frame. -/
def Obligations.ReadReturnsTheAccumulator : Prop :=
  encode .read = 0x200#10 ∧
  (∀ (s : State) (a : Word), s.fault = .none → s.acc = some a →
    exec .read s = .next { s with responses := s.responses ++ [a] } ∧
    exec .read s = .next { s with responses := s.responses ++
      [BitVec.ofNat 16 (a.toNat % 256 + a.toNat / 256 * 256)] } ∧
    (highByte a).toNat = a.toNat / 256 ∧ (lowByte a).toNat = a.toNat % 256) ∧
  (∀ s : State, s.fault = .none → s.acc = none →
    exec .read s = .next { s with fault := .notInitialised }) ∧
  (∀ s : State, s.fault ≠ .none → exec .read s = .next s)

/-- R76: READ between byte steps returns the checksum of the prefix, a BYTE after it continues the same
computation, and two READs with nothing between them return the same value. -/
def Obligations.ReadDoesNotEndAComputation : Prop :=
  (∀ (s : State) (x : List Byte), s.fault = .none →
    performWords (encode .init :: (byteWords x ++ [encode .read])) s =
      .next { s with acc := some (crcFold 0xFFFF#16 x),
                     responses := s.responses ++ [crcFold 0xFFFF#16 x] }) ∧
  (∀ (s : State) (a : Word) (x y : List Byte), s.fault = .none → s.acc = some a →
    performWords (byteWords x ++ encode .read :: byteWords y) s =
      .next { s with acc := some (crcFold a (x ++ y)),
                     responses := s.responses ++ [crcFold a x] } ∧
    performWords (byteWords x ++ byteWords y) s =
      .next { s with acc := some (crcFold a (x ++ y)) }) ∧
  (∀ (s : State) (a : Word), s.fault = .none → s.acc = some a →
    performWords [encode .read, encode .read] s =
      .next { s with responses := s.responses ++ [a, a] })

/-- R77: the engine's step for one command word, branch by branch. -/
def Obligations.CommandStepRule : Prop :=
  ∀ (s : State) (w : CommandWord),
    (s.fault ≠ .none → commandStep s w = .next s) ∧
    (s.fault = .none → reservedWord w = true →
      commandStep s w = .next { s with fault := .reservedCommand }) ∧
    (s.fault = .none → decode w = .init →
      commandStep s w = .next { s with acc := some 0xFFFF#16 }) ∧
    (∀ b : Byte, s.fault = .none → decode w = .byte b →
      commandStep s w = match s.acc with
        | some a => .next { s with acc := some (byteStep a b) }
        | none => .next { s with fault := .notInitialised }) ∧
    (s.fault = .none → decode w = .read →
      commandStep s w = match s.acc with
        | some a => .next { s with responses := s.responses ++ [a] }
        | none => .next { s with fault := .notInitialised })

/-- From the columns "writes", "returns" and "can raise" of R79: what a command may change, for every command
at once, and that it never touches the command channel. For a reserved term that is not well formed it is
the model's choice (log entry 14). -/
def Obligations.CommandsWriteOnlyWhatTheyMay : Prop :=
  ∀ (i : Instr) (s t : State), exec i s = .next t →
    t.inbox = s.inbox ∧
    (t.acc ≠ s.acc → i = .init ∨ ∃ b, i = .byte b) ∧
    (t.fault ≠ s.fault →
      (reservedInstr i = true ∧ t.fault = .reservedCommand) ∨
      (needsAcc i = true ∧ s.acc = none ∧ t.fault = .notInitialised)) ∧
    (t.responses ≠ s.responses →
      i = .read ∧ ∃ a, s.acc = some a ∧ t.responses = s.responses ++ [a])

/-- R38: READ has no side effect, INIT is idempotent, BYTE is not. -/
def Obligations.SideEffectsAndIdempotency : Prop :=
  (∀ (s t : State), s.fault = .none → s.acc ≠ none → exec .read s = .next t →
    t.acc = s.acc ∧ t.fault = s.fault ∧
    ∃ v u, t.responses = s.responses ++ [v] ∧ exec .read t = .next u ∧
      u.responses = t.responses ++ [v]) ∧
  (∀ s : State, s.acc = none → s.fault = .none →
    exec .read s = .next { s with fault := .notInitialised }) ∧
  (∀ (s t : State), exec .init s = .next t → exec .init t = .next t) ∧
  (∃ (s t u : State) (b : Byte), exec (.byte b) s = .next t ∧ exec (.byte b) t = .next u ∧
    u.acc ≠ t.acc)

/-! ## Faults (60_exceptions.md) -/

/-- R18: the codes of the fault status, that 0b11 is never shown and stands for nothing, and that no command
changes a recorded fault. -/
def Obligations.FaultStatusCodes : Prop :=
  faultBits .none = 0b00#2 ∧
  faultBits .reservedCommand = 0b01#2 ∧
  faultBits .notInitialised = 0b10#2 ∧
  (∀ s : State, statusPort s = faultBits s.fault ∧ statusPort s ≠ 0b11#2) ∧
  (∀ f : FaultCode, faultOfBits (faultBits f) = some f) ∧
  (∀ b : BitVec 2, faultOfBits b = none ↔ b = 0b11#2) ∧
  (∀ (i : Instr) (s t : State), s.fault ≠ .none → exec i s = .next t → t.fault = s.fault) ∧
  (∀ (s : State) (es : List HostEvent),
    (∃ t, step (s.setInbox (.reset :: es)) = .next t ∧ t.fault = .none))

/-- From R90: each of the three kinds of reserved word records `RESERVED_COMMAND`, whatever `acc` is, and
nothing else changes. That the two rows with `OP` 0b00 and 0b10 do so for `DATA = 0x00` too, where the term
stands for no reserved word, is the model's choice (log entry 14). -/
def Obligations.ReservedWordsRaiseReservedCommand : Prop :=
  (∀ (s : State) (data : Byte), s.fault = .none →
    exec (.reservedOp11 data) s = .next { s with fault := .reservedCommand } ∧
    exec (.reservedOp00 data) s = .next { s with fault := .reservedCommand } ∧
    exec (.reservedOp10 data) s = .next { s with fault := .reservedCommand }) ∧
  (∀ (s : State) (data : Byte), s.fault ≠ .none →
    exec (.reservedOp11 data) s = .next s ∧
    exec (.reservedOp00 data) s = .next s ∧
    exec (.reservedOp10 data) s = .next s) ∧
  (∀ (s : State) (w : CommandWord), s.fault = .none →
    (reservedWord w = true ↔ ∃ t, commandStep s w = .next t ∧ t.fault = .reservedCommand)) ∧
  faultBits .reservedCommand = 0b01#2

/-- R91: `NotInitialised` is raised by BYTE and READ while `acc = UNDEF`, by nothing else, and `acc` is UNDEF
as long as no INIT has been performed since reset. -/
def Obligations.NotInitialisedCause : Prop :=
  (∀ (s : State) (w : CommandWord), s.fault = .none →
    ((∃ t, commandStep s w = .next t ∧ t.fault = .notInitialised) ↔
      ((decode w = .read ∨ ∃ b, decode w = .byte b) ∧ s.acc = none))) ∧
  (∀ (ws : List CommandWord) (t : State), (∀ w ∈ ws, decode w ≠ .init) →
    performWords ws State.reset = .next t → t.acc = none) ∧
  faultBits .notInitialised = 0b10#2

/-- R93: a command that raises a fault records its code, and nothing else changes: not `acc`, not the
responses, nothing. -/
def Obligations.FaultEntryRecordsOnlyTheCode : Prop :=
  faultBits .reservedCommand = 0b01#2 ∧
  faultBits .notInitialised = 0b10#2 ∧
  (∀ (f : FaultCode) (s : State), raise f s = .next { s with fault := f }) ∧
  (∀ (i : Instr) (s t : State), s.fault = .none → exec i s = .next t → t.fault ≠ .none →
    t = { s with fault := t.fault } ∧
    (t.fault = .reservedCommand ∨ t.fault = .notInitialised))

/-- R93, "Faults are precise", over a whole run: before the word that faults, every word has been performed
with no fault; that word only records its code; no word after it is performed. That a run may start in another state than
reset's is the model's choice (log entry 16). -/
def Obligations.FaultsArePrecise : Prop :=
  ∀ (p : List CommandWord) (s : State) (j : Nat) (r : RunResult),
    s.fault = .none → runFrom p 0 s = .next r → r.ending = .faulted j →
    ∃ u : State, performWords (p.take j) s = .next u ∧ u.fault = .none ∧
      r.final.fault ≠ .none ∧ r.final = { u with fault := r.final.fault } ∧
      performWords p s = .next r.final

/-- From R94: once a fault is recorded no command is performed: any number of words leaves the state as it is,
INIT among them; and a run ends at the word that records the fault. That a run from a state that already holds
a fault ends at its first word is the model's choice (log entry 16). -/
def Obligations.FaultedEnginePerformsNothing : Prop :=
  (∀ (s : State) (ws : List CommandWord), s.fault ≠ .none → performWords ws s = .next s) ∧
  (∀ (s : State) (i : Instr), s.fault ≠ .none → exec i s = .next s) ∧
  (∀ (s t : State) (w : CommandWord) (ws : List CommandWord) (k : Nat),
    commandStep s w = .next t → t.fault ≠ .none →
    runFrom (w :: ws) k s = .next { ending := .faulted k, final := t })

/-- From R95: no word raises both faults, decode comes before the accumulator, and reset comes before the
command in progress. -/
def Obligations.FaultPriority : Prop :=
  (∀ i : Instr, ¬ (reservedInstr i = true ∧ needsAcc i = true)) ∧
  (∀ (s : State) (w : CommandWord), s.fault = .none → s.acc = none → reservedWord w = true →
    commandStep s w = .next { s with fault := .reservedCommand }) ∧
  (∀ (s : State) (w : CommandWord) (es : List HostEvent),
    s.inbox = .resetDuring w :: es →
    ∃ t, step s = .next t ∧ t.acc = none ∧ t.fault = .none)

/-! ## The machine's step, reset and idling (70_reset_and_hazards.md) -/

/-- From R41, R43 and R77: when a command word is the next event, a step takes it from the channel and is
`exec` of the command it decodes to. That a faulted engine's word leaves the channel as well is the model's
choice (log entry 4), and so is the channel itself (log entry 1). -/
def Obligations.StepPerformsTheDecodedCommand : Prop :=
  (∀ (s : State) (w : CommandWord) (es : List HostEvent), s.inbox = .command w :: es →
    step s = exec (decode w) { s with inbox := es }) ∧
  (∀ (s : State) (i : Instr) (es : List HostEvent), i.wf = true →
    s.inbox = .command (encode i) :: es → step s = exec i { s with inbox := es })

/-- R105, R106: a reset that arrives between commands, or during one, leaves `acc = UNDEF` and
`fault = NONE` whatever the state was and whatever command was in progress, and that command returns no
response. -/
def Obligations.ResetAlwaysLeavesTheResetState : Prop :=
  ∀ (s : State) (w : CommandWord) (es : List HostEvent),
    (s.inbox = .reset :: es → ∃ t, step s = .next t ∧ t.acc = none ∧ t.fault = .none) ∧
    (s.inbox = .resetDuring w :: es → ∃ t, step s = .next t ∧ t.acc = none ∧ t.fault = .none ∧
      t.responses.length ≤ s.responses.length)

/-- The model's choice (log entries 2 and 3): a reset removes its own event from the channel and leaves the
rest of it, and what the host has already received stays received. -/
def Obligations.ResetKeepsTheHostsSide : Prop :=
  ∀ (s : State) (w : CommandWord) (es : List HostEvent),
    (s.inbox = .reset :: es ∨ s.inbox = .resetDuring w :: es) →
    step s = .next { s with acc := none, fault := .none, inbox := es }

/-- R104: with nothing in the channel the engine keeps its state, for as many steps as nothing arrives. -/
def Obligations.IdleEngineKeepsItsState : Prop :=
  ∀ (s : State) (k : Nat), s.inbox = [] →
    ∃ t, Host.Core.run Sys2Proof.core k s = .next t ∧ t.acc = s.acc ∧ t.fault = s.fault

/-- R26: the state reset leaves. -/
def Obligations.ResetState : Prop :=
  State.reset.acc = none ∧ State.reset.fault = .none ∧ statusPort State.reset = 0b00#2

/-- The invariant of the fault status holds at reset. -/
def Obligations.FaultConsistentAtReset : Prop :=
  FaultConsistent State.reset

/-- From R91, R93, R94 and R105: every step keeps the invariant that a recorded `NOT_INITIALISED` means
`acc = UNDEF`. -/
def Obligations.StepKeepsFaultConsistent : Prop :=
  ∀ s t : State, FaultConsistent s → step s = .next t → FaultConsistent t

/-- From R77 ("The step is a total function") and R113: every step of every state answers a next state; the
machine never stops and refuses nothing. The model's choice: R77's `Stopped(state)` is a next state (log
entry 5, DEDUCED), an idle step is one too (log entry 6, DEDUCED), and a reserved term that is not well formed
acts as its row does (log entry 14). -/
def Obligations.EveryStepCompletes : Prop :=
  (∀ s : State, ∃ t, step s = .next t) ∧
  (∀ (i : Instr) (s : State), ∃ t, exec i s = .next t) ∧
  (∀ (k : Nat) (s : State), ∃ t, Host.Core.run Sys2Proof.core k s = .next t)

/-- From R47 and R75: a step delivers a response only when it performs a READ of a defined accumulator, and
then exactly that accumulator's value. That a reset leaves the responses as they were, which the premise takes
in, is the model's choice (log entry 3). -/
def Obligations.OnlyReadResponds : Prop :=
  ∀ s t : State, step s = .next t → t.responses ≠ s.responses →
    ∃ es a, s.inbox = .command 0x200#10 :: es ∧ s.fault = .none ∧ s.acc = some a ∧
      t.responses = s.responses ++ [a]

/-- From R16: a step changes the accumulator only by INIT, by BYTE or by reset, and only INIT gives an
undefined accumulator a value. -/
def Obligations.AccumulatorHasThreeWriters : Prop :=
  ∀ s t : State, step s = .next t → t.acc ≠ s.acc →
    (∃ es, s.inbox = .command 0x000#10 :: es ∧ t.acc = some 0xFFFF#16) ∨
    (∃ es b a, s.inbox = .command (encode (.byte b)) :: es ∧ s.acc = some a ∧
      t.acc = some (byteStep a b)) ∨
    (∃ es w, (s.inbox = .reset :: es ∨ s.inbox = .resetDuring w :: es) ∧ t.acc = none)

/-- From R18, R94 and R97: a recorded fault leaves by reset alone, and until then neither `acc` nor the
responses change. -/
def Obligations.OnlyResetClearsAFault : Prop :=
  ∀ s t : State, s.fault ≠ .none → step s = .next t →
    (t.fault = s.fault ∧ t.acc = s.acc ∧ t.responses = s.responses) ∨
    (t.fault = .none ∧ ∃ es w, s.inbox = .reset :: es ∨ s.inbox = .resetDuring w :: es)

/-- From R88, R107 and R111: INIT and then legal words only, from any state with no fault recorded, is a
successful run that leaves a defined accumulator. That a run may start in another state than reset's is the
model's choice (log entry 16). -/
def Obligations.LegalWordsAfterInitNeverFault : Prop :=
  ∀ (s : State) (ws : List CommandWord), s.fault = .none →
    (∀ w ∈ ws, reservedWord w = false) →
    ∃ t a, performWords (encode .init :: ws) s = .next t ∧ t.fault = .none ∧ t.acc = some a ∧
      runFrom (encode .init :: ws) 0 s = .next { ending := .successful, final := t }

/-- From R107: after reset, BYTE or READ before the first INIT raises `NotInitialised`, and INIT makes the
accumulator 0xFFFF. That the word behind the reset in the channel outlives the reset, so that the second step
performs it, is the model's choice (log entry 2). -/
def Obligations.BootNeedsInit : Prop :=
  ∀ (s : State) (w : CommandWord) (es : List HostEvent), s.inbox = .reset :: .command w :: es →
    (needsAcc (decode w) = true →
      ∃ t, Host.Core.run Sys2Proof.core 2 s = .next t ∧ t.fault = .notInitialised ∧ t.acc = none) ∧
    (w = 0x000#10 →
      ∃ t, Host.Core.run Sys2Proof.core 2 s = .next t ∧ t.fault = .none ∧ t.acc = some 0xFFFF#16)

/-! ## The call and the run (42_host_call.md, 70_reset_and_hazards.md) -/

/-- From R80 and R81: from any state with no fault, a call over elements in 0 to 255 is performed without fault and returns
the checksum; the machine that finds the call's commands in its channel performs them in `n + 2` steps; an
input with a larger element is an error at the least such index. That the call's words go ahead of events
the channel still holds, and leave them there, is the model's choice (log entry 18). -/
def Obligations.CallComputesTheChecksum : Prop :=
  (∀ (s : State) (x : List Nat), s.fault = .none → (∀ n ∈ x, n ≤ 255) →
    (crc16 x s = .ok (.next
      { value := some (checksum (x.map (BitVec.ofNat 8))),
        state := { s with
          acc := some (checksum (x.map (BitVec.ofNat 8))),
          responses := s.responses ++ [checksum (x.map (BitVec.ofNat 8))] } })) ∧
    (∀ es : List HostEvent,
      s.inbox = (0x000#10 :: (x.map (fun n => BitVec.ofNat 10 (0x100 + n)) ++ [0x200#10])).map
        .command ++ es →
      Host.Core.run Sys2Proof.core (x.length + 2) s = .next
        { s with
          acc := some (checksum (x.map (BitVec.ofNat 8))),
          inbox := es,
          responses := s.responses ++ [checksum (x.map (BitVec.ofNat 8))] })) ∧
  (∀ (s : State) (x y : List Nat) (n : Nat), (∀ m ∈ x, m ≤ 255) → 255 < n →
    crc16 (x ++ n :: y) s = .error { index := x.length })

/-- R81: an input with an element above 255 is rejected whole, at the least such index, whatever the engine's
state; no command is issued, so there is no state to change. -/
def Obligations.CallRejectsOutOfRangeInput : Prop :=
  ∀ (s : State) (x : List Nat), (∃ n ∈ x, 255 < n) →
    ∃ k n, crc16 x s = .error { index := k } ∧ x[k]? = some n ∧ 255 < n ∧
      ∀ j m, j < k → x[j]? = some m → m ≤ 255

/-- From R83: `L + H * 256` rebuilds the accumulator, so the value of a call is the fold over its input. For a
call made while the channel still holds events it is the model's choice (log entry 18). -/
def Obligations.OutputAssemblyIsTheIdentity : Prop :=
  (∀ a : Word,
    (highByte a).toNat = (a.toNat / 256) % 256 ∧ (lowByte a).toNat = a.toNat % 256 ∧
    (lowByte a).toNat + (highByte a).toNat * 256 = a.toNat ∧
    assembleOutput (highByte a) (lowByte a) = a) ∧
  (∀ (s : State) (x : List Byte), s.fault = .none →
    ∃ r, crc16 (x.map BitVec.toNat) s = .ok (.next r) ∧
      r.value = some (assembleOutput (highByte (crcFold 0xFFFF#16 x))
        (lowByte (crcFold 0xFFFF#16 x))) ∧
      r.value = some (crcFold 0xFFFF#16 x) ∧ r.state.acc = r.value)

/-- From R85: the checksum of the empty input is 0xFFFF. For a call made while the channel still holds events
it is the model's choice (log entry 18). -/
def Obligations.EmptyInputReturnsInitialValue : Prop :=
  ∀ s : State, s.fault = .none →
    callWords [] = [0x000#10, 0x200#10] ∧
    ∃ r, crc16 [] s = .ok (.next r) ∧ r.value = some 0xFFFF#16

/-- From R86 and R25: a call's value depends on its input alone: not on the accumulator, the channel or the
responses it starts from, and a second call of the same input returns the same value. That it does not depend
on events the channel still holds is the model's choice (log entry 18). -/
def Obligations.CallValueDependsOnInputAlone : Prop :=
  (∀ (s₁ s₂ : State) (x : List Nat) (r₁ r₂ : CallResult), s₁.fault = .none → s₂.fault = .none →
    crc16 x s₁ = .ok (.next r₁) → crc16 x s₂ = .ok (.next r₂) → r₁.value = r₂.value) ∧
  (∀ (s : State) (x : List Nat) (r₁ r₂ : CallResult), s.fault = .none →
    crc16 x s = .ok (.next r₁) → crc16 x r₁.state = .ok (.next r₂) → r₁.value = r₂.value)

/-- R114: the run of a program from reset, as the rule defines it word by word, is what the machine does when
it finds the program in its channel: the same observation after as many steps as the program has words, a
successful end exactly when no fault is recorded, a faulted end at the first word that records one. -/
def Obligations.RunOfAProgramIsTheMachinesRun : Prop :=
  ∀ p : List CommandWord, ∃ r t,
    runProgram p = .next r ∧
    Host.Core.run Sys2Proof.core p.length (State.reset.issue p) = .next t ∧
    t.observe = r.final.observe ∧
    (r.ending = .successful ↔ t.fault = .none) ∧
    (r.ending = .successful → performWords p State.reset = .next r.final) ∧
    (∀ j, r.ending = .faulted j → j < p.length ∧
      (∃ u, performWords (p.take j) State.reset = .next u ∧ u.fault = .none) ∧
      performWords (p.take (j + 1)) State.reset = .next r.final ∧ r.final.fault ≠ .none)

/-! ## Assembly and several engines -/

/-- R55: BYTES and CRC16 check every element first; if all are in range they emit the commands the rule gives,
and otherwise nothing at all; CRC16 of nothing is INIT then READ. -/
def Obligations.PseudoInstructionsExpand : Prop :=
  (∀ x : List Nat, (∀ n ∈ x, n ≤ 255) →
    (AsmLine.bytes (x.map .value)).expand = .ok (x.map fun n => BitVec.ofNat 10 (0x100 + n)) ∧
    (AsmLine.crc16 (x.map .value)).expand =
      .ok (0x000#10 :: (x.map (fun n => BitVec.ofNat 10 (0x100 + n)) ++ [0x200#10]))) ∧
  (∀ x : List Nat, (∃ n ∈ x, 255 < n) →
    (∃ e, (AsmLine.bytes (x.map .value)).expand = .error e) ∧
    (∃ e, (AsmLine.crc16 (x.map .value)).expand = .error e)) ∧
  (AsmLine.crc16 []).expand = .ok [0x000#10, 0x200#10]

/-- From R54 and R55, with the model's choices of spelling (log entry 10) and of the code of a character beyond
ASCII (log entry 17): a whole line `CRC16 "<s>"` assembles to
the call's commands over the character codes, for every string with no double quote in it. -/
def Obligations.Crc16LineAssembles : Prop :=
  ∀ cs : List Char, doubleQuote ∉ cs → (∀ c ∈ cs, c.toNat ≤ 255) →
    assembleLine (['C', 'R', 'C', '1', '6', ' ', doubleQuote] ++ cs ++ [doubleQuote]) =
      .ok (callWords (cs.map fun c => BitVec.ofNat 8 c.toNat))

/-- From R54, with the model's choices of spelling (log entry 10) and of the code of a character beyond ASCII
(log entry 17): the line `BYTE '<c>'` for every character, and
the rule's three spellings of the letter h; a code above 255 is `InvalidInput`. -/
def Obligations.ByteLineAssembles : Prop :=
  (∀ c : Char, assembleLine ['b', 'Y', 't', 'E', ' ', singleQuote, c, singleQuote] =
    if c.toNat ≤ 255 then .ok [BitVec.ofNat 10 (0x100 + c.toNat)]
    else .error (.invalidInput { index := 0 })) ∧
  assembleLine ['B', 'Y', 'T', 'E', ' ', '1', '0', '4'] = .ok [0x168#10] ∧
  assembleLine ['B', 'Y', 'T', 'E', ' ', '0', 'x', '6', '8'] = .ok [0x168#10] ∧
  assembleLine ['B', 'Y', 'T', 'E', ' ', '2', '5', '6'] =
    .error (.invalidInput { index := 0 })

/-- From R41 and R102, several engines (log entry 13): a step of one engine is its own step and leaves every
other engine as it was. -/
def Obligations.EnginesShareNothing : Prop :=
  ∀ (es : Engines) (k : Nat) (s : State), es[k]? = some s →
    ∃ es' t, stepEngine k es = .next es' ∧ step s = .next t ∧ es'[k]? = some t ∧
      es'.length = es.length ∧ ∀ j, j ≠ k → es'[j]? = es[j]?
end

