-- ==== Sys2Proof/Config.lean ====
section
/-! DEFINITION. What an implementation fixes. The spec leaves one parameter open, `LATENCY`
(00_scope.md R9, 70_reset_and_hazards.md R112, 92_eei_decisions.md "Open parameters"). -/

namespace Sys2Proof

/-- `LATENCY`: the number of cycles a command of each kind takes. UNVERIFIED: the spec gives no
number, and no rule of the model reads it (R116), so it has no body (log entry 8). -/
opaque Config.latency : CommandKind → Nat

end Sys2Proof
end

