-- ==== Sys2Proof/Laws/Datapath.lean ====
section
/-! SUPPORT. The small lemmas of the datapath and of the output assembly. -/

namespace Sys2Proof.Machine

/-- A round as one expression: the shifted value and the selected feedback (R59). -/
theorem crcRound_eq (a : Word) :
    crcRound a = (a >>> 1) ^^^ (if a.getLsbD 0 then poly else 0#16) := by
  unfold crcRound
  cases a.getLsbD 0 <;> simp

@[simp] theorem rounds_zero (x : Word) : rounds 0 x = x := rfl

@[simp] theorem rounds_succ (n : Nat) (x : Word) : rounds (n + 1) x = rounds n (crcRound x) := rfl

theorem rounds_add (m n : Nat) (x : Word) : rounds (m + n) x = rounds n (rounds m x) := by
  induction m generalizing x with
  | zero => simp
  | succ m ih => rw [Nat.succ_add, rounds_succ, ih, rounds_succ]

@[simp] theorem crcFold_nil (a : Word) : crcFold a [] = a := rfl

@[simp] theorem crcFold_cons (a : Word) (b : Byte) (rest : List Byte) :
    crcFold a (b :: rest) = crcFold (byteStep a b) rest := rfl

theorem highByte_toNat (a : Word) : (highByte a).toNat = a.toNat / 256 := by
  have h : a.toNat / 256 < 2 ^ 8 := by have := a.isLt; omega
  simpa [highByte, Nat.shiftRight_eq_div_pow] using
    (Nat.and_two_pow_sub_one_eq_mod (a.toNat / 256) 8).trans (Nat.mod_eq_of_lt h)

theorem lowByte_toNat (a : Word) : (lowByte a).toNat = a.toNat % 256 := by
  simpa [lowByte] using Nat.and_two_pow_sub_one_eq_mod a.toNat 8

end Sys2Proof.Machine
end

