-- ==== Sys2Proof/Laws/Decode.lean ====
section
/-! SUPPORT. A command word is its two fields: taking them from a word put together gives them back, and
putting them together gives the word back. -/

namespace Sys2Proof

theorem commandWord_toNat (op : Opcode) (data : Byte) :
    (commandWord op data).toNat = op.toNat * 256 + data.toNat := by
  have h : data.toNat < 2 ^ 8 := data.isLt
  have := BitVec.toNat_append op data
  rw [← Nat.shiftLeft_add_eq_or_of_lt h, Nat.shiftLeft_eq] at this
  exact this

theorem opField_toNat (w : CommandWord) : (opField w).toNat = w.toNat / 256 := by
  have h := w.isLt
  simp [opField, Nat.shiftRight_eq_div_pow]
  omega

theorem dataField_toNat (w : CommandWord) : (dataField w).toNat = w.toNat % 256 := by
  simp [dataField]

@[simp] theorem opField_commandWord (op : Opcode) (data : Byte) :
    opField (commandWord op data) = op := by
  apply BitVec.eq_of_toNat_eq
  rw [opField_toNat, commandWord_toNat]
  have := data.isLt
  omega

@[simp] theorem dataField_commandWord (op : Opcode) (data : Byte) :
    dataField (commandWord op data) = data := by
  apply BitVec.eq_of_toNat_eq
  rw [dataField_toNat, commandWord_toNat]
  have := data.isLt
  omega

theorem commandWord_fields (w : CommandWord) : commandWord (opField w) (dataField w) = w := by
  apply BitVec.eq_of_toNat_eq
  rw [commandWord_toNat, opField_toNat, dataField_toNat]
  omega

end Sys2Proof
end

