-- ==== Sys2Proof/Laws/State.lean ====
section
/-! SUPPORT. One lemma per field per update of `State`. -/

namespace Sys2Proof.Machine

@[simp] theorem State.setAcc_acc (s : State) (v : Word) : (s.setAcc v).acc = some v := rfl
@[simp] theorem State.setAcc_fault (s : State) (v : Word) : (s.setAcc v).fault = s.fault := rfl
@[simp] theorem State.setAcc_inbox (s : State) (v : Word) : (s.setAcc v).inbox = s.inbox := rfl
@[simp] theorem State.setAcc_responses (s : State) (v : Word) :
    (s.setAcc v).responses = s.responses := rfl

@[simp] theorem State.setFault_acc (s : State) (f : FaultCode) : (s.setFault f).acc = s.acc := rfl
@[simp] theorem State.setFault_fault (s : State) (f : FaultCode) : (s.setFault f).fault = f := rfl
@[simp] theorem State.setFault_inbox (s : State) (f : FaultCode) :
    (s.setFault f).inbox = s.inbox := rfl
@[simp] theorem State.setFault_responses (s : State) (f : FaultCode) :
    (s.setFault f).responses = s.responses := rfl

@[simp] theorem State.respond_acc (s : State) (v : Word) : (s.respond v).acc = s.acc := rfl
@[simp] theorem State.respond_fault (s : State) (v : Word) : (s.respond v).fault = s.fault := rfl
@[simp] theorem State.respond_inbox (s : State) (v : Word) : (s.respond v).inbox = s.inbox := rfl
@[simp] theorem State.respond_responses (s : State) (v : Word) :
    (s.respond v).responses = s.responses ++ [v] := rfl

@[simp] theorem State.setInbox_acc (s : State) (es : List HostEvent) :
    (s.setInbox es).acc = s.acc := rfl
@[simp] theorem State.setInbox_fault (s : State) (es : List HostEvent) :
    (s.setInbox es).fault = s.fault := rfl
@[simp] theorem State.setInbox_inbox (s : State) (es : List HostEvent) :
    (s.setInbox es).inbox = es := rfl
@[simp] theorem State.setInbox_responses (s : State) (es : List HostEvent) :
    (s.setInbox es).responses = s.responses := rfl

@[simp] theorem applyReset_acc (s : State) : (applyReset s).acc = none := rfl
@[simp] theorem applyReset_fault (s : State) : (applyReset s).fault = FaultCode.none := rfl
@[simp] theorem applyReset_inbox (s : State) : (applyReset s).inbox = s.inbox := rfl
@[simp] theorem applyReset_responses (s : State) : (applyReset s).responses = s.responses := rfl

@[simp] theorem State.issue_acc (s : State) (ws : List CommandWord) :
    (s.issue ws).acc = s.acc := rfl
@[simp] theorem State.issue_fault (s : State) (ws : List CommandWord) :
    (s.issue ws).fault = s.fault := rfl
@[simp] theorem State.issue_inbox (s : State) (ws : List CommandWord) :
    (s.issue ws).inbox = s.inbox ++ ws.map .command := rfl
@[simp] theorem State.issue_responses (s : State) (ws : List CommandWord) :
    (s.issue ws).responses = s.responses := rfl

@[simp] theorem State.issueNext_acc (s : State) (w : CommandWord) :
    (s.issueNext w).acc = s.acc := rfl
@[simp] theorem State.issueNext_fault (s : State) (w : CommandWord) :
    (s.issueNext w).fault = s.fault := rfl
@[simp] theorem State.issueNext_inbox (s : State) (w : CommandWord) :
    (s.issueNext w).inbox = .command w :: s.inbox := rfl
@[simp] theorem State.issueNext_responses (s : State) (w : CommandWord) :
    (s.issueNext w).responses = s.responses := rfl

@[simp] theorem State.reset_acc : State.reset.acc = none := rfl
@[simp] theorem State.reset_fault : State.reset.fault = FaultCode.none := rfl
@[simp] theorem State.reset_inbox : State.reset.inbox = [] := rfl
@[simp] theorem State.reset_responses : State.reset.responses = [] := rfl

end Sys2Proof.Machine
end

