-- ==== Sys2Proof/Laws/Ops.lean ====
section
/-! SUPPORT. What each shared operation can do, said once, and from these what `exec`, `commandStep` and
`step` can do. -/

namespace Sys2Proof.Machine

@[simp] theorem raise_eq (f : FaultCode) (s : State) : raise f s = .next (s.setFault f) := rfl

theorem performing_of_running {s : State} (h : s.running) (c : State → Result) :
    performing s c = c s := if_pos h

theorem performing_of_faulted {s : State} (h : ¬ s.running) (c : State → Result) :
    performing s c = .next s := if_neg h

theorem withAcc_of_some {s : State} {a : Word} (h : s.acc = some a) (use : Word → Result) :
    withAcc s use = use a := by simp [withAcc, h]

theorem withAcc_of_undef {s : State} (h : s.acc = none) (use : Word → Result) :
    withAcc s use = .next (s.setFault .notInitialised) := by simp [withAcc, h]

/-- Everything `performing` can do when it answers a next state. -/
theorem performing_next {s t : State} {c : State → Result} (h : performing s c = .next t) :
    (s.running ∧ c s = .next t) ∨ (¬ s.running ∧ t = s) := by
  by_cases hs : s.running
  · exact .inl ⟨hs, performing_of_running hs c ▸ h⟩
  · rw [performing_of_faulted hs] at h
    exact .inr ⟨hs, by injection h with h; exact h.symm⟩

/-- Everything `withAcc` can do when it answers a next state. -/
theorem withAcc_next {s t : State} {use : Word → Result} (h : withAcc s use = .next t) :
    (∃ a, s.acc = some a ∧ use a = .next t) ∨
      (s.acc = none ∧ t = s.setFault .notInitialised) := by
  cases ha : s.acc with
  | some a => exact .inl ⟨a, rfl, withAcc_of_some ha use ▸ h⟩
  | none =>
    rw [withAcc_of_undef ha] at h
    exact .inr ⟨rfl, by injection h with h; exact h.symm⟩

/-- Everything a command can do when a fault has not been recorded before it. -/
theorem exec_running_cases {i : Instr} {s t : State} (hs : s.running) (h : exec i s = .next t) :
    (i = .init ∧ t = s.setAcc initValue) ∨
    (∃ b a, i = .byte b ∧ s.acc = some a ∧ t = s.setAcc (byteStep a b)) ∨
    (∃ a, i = .read ∧ s.acc = some a ∧ t = s.respond (readResult a)) ∨
    (needsAcc i = true ∧ s.acc = none ∧ t = s.setFault .notInitialised) ∨
    (reservedInstr i = true ∧ t = s.setFault .reservedCommand) := by
  cases i with
  | init =>
    simp only [exec, execInit, performing_of_running hs, Host.Outcome.next.injEq] at h
    exact .inl ⟨rfl, h.symm⟩
  | byte b =>
    simp only [exec, execByte, performing_of_running hs] at h
    obtain ⟨a, ha, h⟩ | ⟨ha, rfl⟩ := withAcc_next h
    · exact .inr (.inl ⟨b, a, rfl, ha, by injection h with h; exact h.symm⟩)
    · exact .inr (.inr (.inr (.inl ⟨rfl, ha, rfl⟩)))
  | read =>
    simp only [exec, execRead, performing_of_running hs] at h
    obtain ⟨a, ha, h⟩ | ⟨ha, rfl⟩ := withAcc_next h
    · exact .inr (.inr (.inl ⟨a, rfl, ha, by injection h with h; exact h.symm⟩))
    · exact .inr (.inr (.inr (.inl ⟨rfl, ha, rfl⟩)))
  | reservedOp11 data =>
    simp only [exec, execReservedOp11, performing_of_running hs, raise_eq,
      Host.Outcome.next.injEq] at h
    exact .inr (.inr (.inr (.inr ⟨rfl, h.symm⟩)))
  | reservedOp00 data =>
    simp only [exec, execReservedOp00, performing_of_running hs, raise_eq,
      Host.Outcome.next.injEq] at h
    exact .inr (.inr (.inr (.inr ⟨rfl, h.symm⟩)))
  | reservedOp10 data =>
    simp only [exec, execReservedOp10, performing_of_running hs, raise_eq,
      Host.Outcome.next.injEq] at h
    exact .inr (.inr (.inr (.inr ⟨rfl, h.symm⟩)))

/-- Everything the machine's step can do: idle, perform the next word's command, or reset. -/
theorem step_cases (s : State) :
    (s.inbox = [] ∧ step s = .next s) ∨
    (∃ w es, s.inbox = .command w :: es ∧ step s = commandStep (s.setInbox es) w) ∨
    (∃ es, s.inbox = .reset :: es ∧ step s = .next (applyReset (s.setInbox es))) ∨
    (∃ w es, s.inbox = .resetDuring w :: es ∧ step s = .next (applyReset (s.setInbox es))) := by
  cases hb : s.inbox with
  | nil => exact .inl ⟨rfl, by simp [step, takeEvent, hb]⟩
  | cons e es =>
    cases e with
    | command w => exact .inr (.inl ⟨w, es, rfl, by simp [step, takeEvent, hb]⟩)
    | reset => exact .inr (.inr (.inl ⟨es, rfl, by simp [step, takeEvent, hb]⟩))
    | resetDuring w => exact .inr (.inr (.inr ⟨w, es, rfl, by simp [step, takeEvent, hb]⟩))

end Sys2Proof.Machine
end

