-- ==== Sys2Proof/Laws/PerInstr.lean ====
section
/-! SUPPORT. Facts about every command as syntax, one lemma per constructor. -/

namespace Sys2Proof.Laws.EncodeFields

/-- The `OP` field of a command's word (R45). -/
def opOf : Instr → Opcode
  | .init => 0b00
  | .byte _ => 0b01
  | .read => 0b10
  | .reservedOp11 _ => 0b11
  | .reservedOp00 _ => 0b00
  | .reservedOp10 _ => 0b10

/-- The `DATA` field of a command's word (R45, R46). -/
def dataOf : Instr → Byte
  | .init => 0x00
  | .byte b => b
  | .read => 0x00
  | .reservedOp11 data => data
  | .reservedOp00 data => data
  | .reservedOp10 data => data

/-- The encoder puts the command's `OP` and `DATA` in the two fields of its word. -/
def Statement (i : Instr) : Prop :=
  opField (encode i) = opOf i ∧ dataField (encode i) = dataOf i

theorem init : Statement .init := ⟨opField_commandWord _ _, dataField_commandWord _ _⟩

theorem byte (b : Byte) : Statement (.byte b) :=
  ⟨opField_commandWord _ _, dataField_commandWord _ _⟩

theorem read : Statement .read := ⟨opField_commandWord _ _, dataField_commandWord _ _⟩

theorem reservedOp11 (data : Byte) : Statement (.reservedOp11 data) :=
  ⟨opField_commandWord _ _, dataField_commandWord _ _⟩

theorem reservedOp00 (data : Byte) : Statement (.reservedOp00 data) :=
  ⟨opField_commandWord _ _, dataField_commandWord _ _⟩

theorem reservedOp10 (data : Byte) : Statement (.reservedOp10 data) :=
  ⟨opField_commandWord _ _, dataField_commandWord _ _⟩

end Sys2Proof.Laws.EncodeFields
end

