-- ==== Sys2Proof/Tests/Slice0.lean ====
section
/-! SUPPORT. Tests of one step or one function each, with the expected value from spec/95_test_vectors.md or the
rule named; and for each statement with hypotheses a state and operands that meet them. -/

namespace Sys2Proof.Tests

open Sys2Proof.Machine

/-- A state with the accumulator and the fault status given, and nothing on the host's side. -/
def engine (acc : Option Word) (fault : FaultCode) : State :=
  { acc := acc, fault := fault, inbox := [], responses := [] }

/-- The same with events in the channel. -/
def engineWith (acc : Option Word) (fault : FaultCode) (es : List HostEvent) : State :=
  { acc := acc, fault := fault, inbox := es, responses := [] }

/-- The next state, if the outcome is one. -/
def nextOf {α : Type} : Host.Outcome α Fault Refusal → Option α
  | .next t => some t
  | .fault _ => none
  | .refused _ => none

/-! ## Well-formedness: each check refuses an ill-formed term (R45, R49) -/

theorem test_wf_refuses_op00_zero : (Instr.reservedOp00 0x00#8).wf = false := by decide
theorem test_wf_refuses_op10_zero : (Instr.reservedOp10 0x00#8).wf = false := by decide
theorem test_wf_accepts_op11_zero : (Instr.reservedOp11 0x00#8).wf = true := by decide

/-! ## Decoding: words written out from R44, R45 and R53 -/

theorem test_decode_init : decode 0b0000000000#10 = .init := by decide
theorem test_decode_byte : decode 0b0101101000#10 = .byte 0x68#8 := by decide
theorem test_decode_read : decode 0b1000000000#10 = .read := by decide
theorem test_decode_reservedOp11 : decode 0b1100000001#10 = .reservedOp11 0x01#8 := by decide
theorem test_decode_reservedOp00 : decode 0b0010000000#10 = .reservedOp00 0x80#8 := by decide
theorem test_decode_reservedOp10 : decode 0b1010000000#10 = .reservedOp10 0x80#8 := by decide
theorem test_encode_byte : encode (.byte 0x68#8) = 0x168#10 := by decide
theorem test_transcribe_1024 : decodeNat 1024 = .error (.widerThanFormat 1024) := by decide
theorem test_table_word : decodeTableWord 16 0x200 = some .read := by decide
theorem test_table_word_wide : decodeTableWord 16 0x400 = none ∧ decodeTableWord 10 0x400 = none := by
  decide
theorem test_withFetchWord_wide : State.reset.withFetchWord 10 0x400 = State.reset := by decide

/-! ## The datapath: 95_test_vectors.md section 2 -/

theorem test_round_logical : crcRound 0x8000#16 = 0x4000#16 := by decide
theorem test_round_feedback : crcRound 0x5555#16 = 0x8AAB#16 := by decide
theorem test_unround : unround 0xDFCA#16 = 0xFF97#16 := by decide
theorem test_byteStep : byteStep 0x1234#16 0x56#8 = 0xE993#16 := by decide
theorem test_byteStepByTable : byteStepByTable 0xAEBE#16 0x65#8 = 0x5BEE#16 := by decide
/-- V-ORD of section 3. -/
theorem test_checksum_order :
    checksum [0x00#8, 0x01#8] = 0x70C0#16 ∧ checksum [0x01#8, 0x00#8] = 0x2000#16 := by
  decide +kernel
theorem test_checksum_A : checksum [0x41#8] = 0x707F#16 := by decide

/-! ## The commands: 95_test_vectors.md section 4 -/

/-- K1. -/
theorem test_init_from_undef :
    nextOf (exec .init (engine none .none)) = some (engine (some 0xFFFF#16) .none) := by decide
/-- K16. -/
theorem test_init_not_performed_when_faulted :
    nextOf (exec .init (engine (some 0xFFFF#16) .reservedCommand)) =
      some (engine (some 0xFFFF#16) .reservedCommand) := by decide
/-- K4. -/
theorem test_byte :
    nextOf (exec (.byte 0x68#8) (engine (some 0xFFFF#16) .none)) =
      some (engine (some 0xAEBE#16) .none) := by decide
/-- K9. -/
theorem test_byte_undef :
    nextOf (exec (.byte 0x41#8) (engine none .none)) = some (engine none .notInitialised) := by decide
/-- K8: no byte swap. -/
theorem test_read :
    nextOf (exec .read (engine (some 0x00FF#16) .none)) =
      some { engine (some 0x00FF#16) .none with responses := [0x00FF#16] } := by decide
/-- K10. -/
theorem test_read_undef :
    nextOf (exec .read (engine none .none)) = some (engine none .notInitialised) := by decide
/-- K15: decode comes before the accumulator. -/
theorem test_reservedOp11 :
    nextOf (exec (.reservedOp11 0x00#8) (engine none .none)) =
      some (engine none .reservedCommand) := by decide
/-- K13. -/
theorem test_reservedOp00 :
    nextOf (exec (.reservedOp00 0x01#8) (engine (some 0xFFFF#16) .none)) =
      some (engine (some 0xFFFF#16) .reservedCommand) := by decide
/-- K14. -/
theorem test_reservedOp10 :
    nextOf (exec (.reservedOp10 0x80#8) (engine (some 0xFFFF#16) .none)) =
      some (engine (some 0xFFFF#16) .reservedCommand) := by decide
/-- K18, with a command in progress (R106). -/
theorem test_reset_during :
    nextOf (step (engineWith (some 0x1234#16) .reservedCommand [.resetDuring 0x168#10])) =
      some (engine none .none) := by decide
theorem test_step_takes_the_word :
    nextOf (step (engineWith none .none [.command 0x000#10, .command 0x200#10])) =
      some (engineWith (some 0xFFFF#16) .none [.command 0x200#10]) := by decide
theorem test_step_idle :
    nextOf (step (engine (some 0x1234#16) .none)) = some (engine (some 0x1234#16) .none) := by decide
theorem test_withFetchWord :
    nextOf (step (State.reset.withFetchWord 16 0x168)) = some (engine none .notInitialised) := by decide
/-- R18. -/
theorem test_statusPort : statusPort (engine none .notInitialised) = 0b10#2 := by decide

/-! ## The call and the assembler: 95_test_vectors.md section 4, 30_encoding.md R54 and R55 -/

/-- H2. -/
theorem test_checkInput : checkInput [104, 300, 1000] = .error { index := 1 } := by decide
/-- H3. -/
theorem test_checkInput_255 : checkInput [255] = .ok [0xFF#8] := by decide
/-- P6: the run ends at word 0. -/
theorem test_run_faulted :
    nextOf (runProgram [0x141#10, 0x000#10]) =
      some { ending := .faulted 0, final := engine none .notInitialised } := by decide
theorem test_assemble_comment :
    assembleLine ['R', 'e', 'a', 'd', ' ', ';', 'x'] = .ok [0x200#10] := by decide
theorem test_assemble_list :
    assembleLine ['B', 'Y', 'T', 'E', 'S', ' ', '[', '0', 'x', 'f', 'F', ',', ' ', '7', ']'] =
      .ok [0x1FF#10, 0x107#10] := by rfl
theorem test_assemble_negative :
    assembleLine ['B', 'Y', 'T', 'E', ' ', '-', '1'] = .error (.invalidInput { index := 0 }) := by decide
/-- The model's choice (log entry 11). -/
theorem test_assemble_negative_hex :
    assembleLine ['B', 'Y', 'T', 'E', ' ', '-', '0', 'x', '1'] = .error .badSyntax := by decide
theorem test_assemble_lines :
    assemble ['I', 'N', 'I', 'T', '\n', 'B', 'Y', 'T', 'E', ' ', '2', '5', '6'] =
      .error { line := 1, error := .invalidInput { index := 0 } } := by decide

/-! ## Witnesses: states and operands that meet each statement's hypotheses -/

/-- A running engine with a defined accumulator: InitLoadsInitialValue, ByteFeedsTheAccumulator (defined
clause and zero byte), ReadReturnsTheAccumulator, ReadDoesNotEndAComputation, FoldComposes,
ReinitialisationForgets, OutputAssemblyIsTheIdentity, EmptyInputReturnsInitialValue. -/
theorem witness_running_defined :
    (engine (some 0xFFFF#16) .none).fault = .none ∧
      (engine (some 0xFFFF#16) .none).acc = some 0xFFFF#16 := by decide
/-- A running engine with an undefined accumulator: the NotInitialised clauses of ByteFeedsTheAccumulator,
ReadReturnsTheAccumulator, SideEffectsAndIdempotency and CommandStepRule. -/
theorem witness_running_undef :
    State.reset.fault = .none ∧ State.reset.acc = none := by decide
/-- A faulted engine: the "not performed" clauses, FaultedEnginePerformsNothing. -/
theorem witness_faulted : (engine none .notInitialised).fault ≠ .none := by decide

/-- DecodeAndEncodeAreInverse, CommandStepRule: a word for each clause, at the ends of its range. -/
theorem witness_word_clauses :
    ((0x000#10).toNat / 256 = 0 ∧ (0x000#10).toNat % 256 = 0) ∧
    ((0x001#10).toNat / 256 = 0 ∧ (0x001#10).toNat % 256 ≠ 0) ∧
    ((0x0FF#10).toNat / 256 = 0 ∧ (0x0FF#10).toNat % 256 ≠ 0) ∧
    (0x100#10).toNat / 256 = 1 ∧ (0x1FF#10).toNat / 256 = 1 ∧
    ((0x200#10).toNat / 256 = 2 ∧ (0x200#10).toNat % 256 = 0) ∧
    ((0x201#10).toNat / 256 = 2 ∧ (0x201#10).toNat % 256 ≠ 0) ∧
    ((0x2FF#10).toNat / 256 = 2 ∧ (0x2FF#10).toNat % 256 ≠ 0) ∧
    (0x300#10).toNat / 256 = 3 ∧ (0x3FF#10).toNat / 256 = 3 := by decide
theorem witness_wf : (Instr.reservedOp00 0x01#8).wf = true := by decide
/-- ReservedWordsAreExactlyThe766, ReservedWordsRaiseReservedCommand, FaultPriority, CommandStepRule. -/
theorem witness_reserved_word :
    reservedWord 0x300#10 = true ∧ reservedWord 0x001#10 = true ∧ reservedWord 0x280#10 = true ∧
      State.reset.fault = .none ∧ State.reset.acc = none := by decide
/-- WideNaturalsAreRefused, TableWordIsTheNextCommand, at the bound. -/
theorem witness_naturals : 1023 < 1024 ∧ 1024 ≤ 1024 := by decide
/-- RoundNetlist and ByteEntersTheLowEightBits: the ends of the bit ranges. -/
theorem witness_bits : (1 ≤ 1 ∧ 1 ≤ 12) ∧ (1 ≤ 12 ∧ 12 ≤ 12) ∧ (7 < 8) ∧ (8 ≤ 8 ∧ 15 < 16) := by decide
/-- DistinctBytesDistinctChecksums, AdjacentByteOrderMatters, OneChangedByteChangesTheChecksum. -/
theorem witness_distinct_bytes : (0x00#8 : Byte) ≠ 0x01#8 := by decide
/-- InitLoadsInitialValue (third clause), CommandsWriteOnlyWhatTheyMay (accumulator clause). -/
theorem witness_init_next :
    ∃ t, exec .init State.reset = .next t ∧ t.acc ≠ State.reset.acc := ⟨_, rfl, by decide⟩
/-- CommandsWriteOnlyWhatTheyMay (fault clause), FaultEntryRecordsOnlyTheCode, NotInitialisedCause. -/
theorem witness_fault_entry :
    State.reset.fault = .none ∧
      ∃ t, exec .read State.reset = .next t ∧ t.fault ≠ .none ∧ t.fault ≠ State.reset.fault :=
  ⟨rfl, _, rfl, by decide, by decide⟩
/-- CommandsWriteOnlyWhatTheyMay (response clause), SideEffectsAndIdempotency (first clause). -/
theorem witness_read_next :
    (engine (some 0x34F6#16) .none).acc ≠ none ∧
      ∃ t, exec .read (engine (some 0x34F6#16) .none) = .next t ∧
        t.responses ≠ (engine (some 0x34F6#16) .none).responses := ⟨by decide, _, rfl, by decide⟩
/-- NotInitialisedCause (second clause): words with no INIT among them, performed from reset. -/
theorem witness_no_init :
    (∀ w ∈ [(0x141#10 : CommandWord)], decode w ≠ .init) ∧
      ∃ t, performWords [0x141#10] State.reset = .next t := ⟨by decide, _, rfl⟩
/-- FaultStatusCodes, OnlyResetClearsAFault: a command offered to a faulted engine. -/
theorem witness_faulted_exec :
    (engine none .reservedCommand).fault ≠ .none ∧
      ∃ t, exec .init (engine none .reservedCommand) = .next t := ⟨by decide, _, rfl⟩
theorem witness_faulted_step :
    (engineWith none .reservedCommand [.reset]).fault ≠ .none ∧
      ∃ t, step (engineWith none .reservedCommand [.reset]) = .next t := ⟨by decide, _, rfl⟩
/-- FaultsArePrecise: a run that faults at its second word. -/
theorem witness_faulted_run :
    ∃ r, runFrom [0x000#10, 0x300#10, 0x200#10] 0 State.reset = .next r ∧ r.ending = .faulted 1 :=
  ⟨_, rfl, rfl⟩
/-- FaultedEnginePerformsNothing (third clause). -/
theorem witness_command_faults :
    ∃ t, commandStep State.reset 0x200#10 = .next t ∧ t.fault ≠ .none := ⟨_, rfl, by decide⟩
/-- StepPerformsTheDecodedCommand. -/
theorem witness_command_next :
    (Instr.byte 0xFF#8).wf = true ∧
      (engineWith none .none [.command (encode (.byte 0xFF#8))]).inbox =
        .command (encode (.byte 0xFF#8)) :: [] := by decide
/-- FaultPriority, ResetAlwaysLeavesTheResetState, ResetKeepsTheHostsSide. -/
theorem witness_reset_next :
    (engineWith none .none [.reset]).inbox = .reset :: [] ∧
      (engineWith none .none [.resetDuring 0x1FF#10]).inbox = .resetDuring 0x1FF#10 :: [] := by decide
/-- IdleEngineKeepsItsState. -/
theorem witness_idle : (engine (some 0x1234#16) .none).inbox = [] := by decide
/-- StepKeepsFaultConsistent: a state in which the invariant's premise holds, and its step. -/
theorem witness_fault_consistent :
    FaultConsistent (engine none .notInitialised) ∧
      ∃ t, step (engine none .notInitialised) = .next t := ⟨by decide, _, rfl⟩
/-- OnlyReadResponds. -/
theorem witness_read_step :
    ∃ t, step (engineWith (some 0x34F6#16) .none [.command 0x200#10]) = .next t ∧
      t.responses ≠ (engineWith (some 0x34F6#16) .none [.command 0x200#10]).responses :=
  ⟨_, rfl, by decide⟩
/-- AccumulatorHasThreeWriters. -/
theorem witness_init_step :
    ∃ t, step (engineWith none .none [.command 0x000#10]) = .next t ∧
      t.acc ≠ (engineWith none .none [.command 0x000#10]).acc := ⟨_, rfl, by decide⟩
/-- LegalWordsAfterInitNeverFault. -/
theorem witness_legal_words :
    State.reset.fault = .none ∧
      ∀ w ∈ [(0x100#10 : CommandWord), 0x1FF#10, 0x200#10, 0x000#10], reservedWord w = false := by
  decide
/-- BootNeedsInit, both clauses. -/
theorem witness_boot :
    needsAcc (decode 0x100#10) = true ∧
      (engineWith none .none [.reset, .command 0x100#10]).inbox =
        .reset :: .command 0x100#10 :: [] ∧
      (engineWith none .none [.reset, .command 0x000#10]).inbox =
        .reset :: .command 0x000#10 :: [] := by decide
/-- CallComputesTheChecksum, first clause (at the bound 255) and its machine clause. -/
theorem witness_call :
    State.reset.fault = .none ∧ (∀ n ∈ [255], n ≤ 255) ∧
      (engineWith none .none
          [.command 0x000#10, .command 0x1FF#10, .command 0x200#10, .reset]).inbox =
        (0x000#10 :: ([255].map (fun n => BitVec.ofNat 10 (0x100 + n)) ++ [0x200#10])).map
          .command ++ [.reset] := by decide
/-- CallComputesTheChecksum (second clause), CallRejectsOutOfRangeInput, PseudoInstructionsExpand, at the
bound 256. -/
theorem witness_out_of_range : (∀ m ∈ [255], m ≤ 255) ∧ 255 < 256 ∧ ∃ n ∈ [255, 256], 255 < n := by
  decide
/-- CallValueDependsOnInputAlone, both clauses. -/
theorem witness_two_calls :
    State.reset.fault = .none ∧ (engine (some 0x1234#16) .none).fault = .none ∧
      ∃ r₁ r₂ r₃, crc16 [] State.reset = .ok (.next r₁) ∧
        crc16 [] (engine (some 0x1234#16) .none) = .ok (.next r₂) ∧
        crc16 [] r₁.state = .ok (.next r₃) := ⟨rfl, rfl, _, _, _, rfl, rfl, rfl⟩
/-- RunOfAProgramIsTheMachinesRun has no hypothesis; a program with a faulted end and one with a successful
end, for its two clauses. -/
theorem witness_run_ends :
    (∃ r, runProgram [0x200#10] = .next r ∧ r.ending = .faulted 0) ∧
      (∃ r, runProgram [0x000#10] = .next r ∧ r.ending = .successful) :=
  ⟨⟨_, rfl, by decide⟩, ⟨_, rfl, by decide⟩⟩
/-- Crc16LineAssembles. -/
theorem witness_string : doubleQuote ∉ ['h', 'i'] ∧ ∀ c ∈ ['h', 'i'], c.toNat ≤ 255 := by
  simp [doubleQuote]
/-- EnginesShareNothing. -/
theorem witness_engines :
    ([State.reset, engine (some 0x1234#16) .none] : Engines)[1]? =
      some (engine (some 0x1234#16) .none) := by decide

end Sys2Proof.Tests
end

section
/-! SUPPORT. The decoder and the encoder undo each other (30_encoding.md R52). -/

namespace Sys2Proof

/-- The fourth opcode is what is left when the decoder's three tests have failed (R44). -/
theorem opcode_eq_three : ∀ op : Opcode, op ≠ 0b00 → op ≠ 0b01 → op ≠ 0b10 → op = 0b11 := by
  decide

@[simp] theorem encode_decode (w : CommandWord) : encode (decode w) = w := by
  have fields := commandWord_fields w
  unfold decode
  dsimp only
  split_ifs with op0 data0 op1 op2 data0
  · rw [op0, data0] at fields
    exact fields
  · rw [op0] at fields
    exact fields
  · rw [op1] at fields
    exact fields
  · rw [op2, data0] at fields
    exact fields
  · rw [op2] at fields
    exact fields
  · rw [opcode_eq_three _ op0 op1 op2] at fields
    exact fields

/-- The only word that decodes to `i` is the one `i` is encoded as. -/
theorem eq_encode_of_decode_eq {w : CommandWord} {i : Instr} (h : decode w = i) : w = encode i := by
  rw [← h, encode_decode]

theorem decode_encode {i : Instr} (h : i.wf = true) : decode (encode i) = i := by
  cases i with
  | init | byte | read | reservedOp11 => simp [decode, encode]
  | reservedOp00 data | reservedOp10 data =>
    have data_ne : data ≠ 0x00#8 := by simpa [Instr.wf] using h
    simp [decode, encode, data_ne]

end Sys2Proof
end

section
/-! SUPPORT. What one command does: in a faulted state, in a running one, and to the accumulator. -/

namespace Sys2Proof.Machine

/-- A faulted engine performs no command (R94). -/
theorem exec_of_faulted {s : State} (hs : ¬ s.running) (i : Instr) : exec i s = .next s := by
  cases i <;>
    simp only [exec, execInit, execByte, execRead, execReservedOp11, execReservedOp00,
      execReservedOp10, performing_of_faulted hs]

theorem commandStep_of_faulted {s : State} (hs : ¬ s.running) (w : CommandWord) :
    commandStep s w = .next s := exec_of_faulted hs (decode w)

theorem commandStep_encode {i : Instr} (h : i.wf = true) (s : State) :
    commandStep s (encode i) = exec i s := by
  rw [commandStep, decode_encode h]

theorem exec_init_of_running {s : State} (hs : s.running) :
    exec .init s = .next (s.setAcc initValue) := by
  simp only [exec, execInit, performing_of_running hs]

theorem exec_byte_of_some {s : State} {a : Word} (hs : s.running) (ha : s.acc = some a) (b : Byte) :
    exec (.byte b) s = .next (s.setAcc (byteStep a b)) := by
  simp only [exec, execByte, performing_of_running hs, withAcc_of_some ha]

theorem exec_read_of_some {s : State} {a : Word} (hs : s.running) (ha : s.acc = some a) :
    exec .read s = .next (s.respond (readResult a)) := by
  simp only [exec, execRead, performing_of_running hs, withAcc_of_some ha]

/-- A command that changes the accumulator is INIT, or BYTE of a defined accumulator (R16). -/
theorem exec_changes_acc {i : Instr} {s t : State} (h : exec i s = .next t) (hacc : t.acc ≠ s.acc) :
    (i = .init ∧ t.acc = some initValue) ∨
      (∃ b a, i = .byte b ∧ s.acc = some a ∧ t.acc = some (byteStep a b)) := by
  by_cases hs : s.running
  · obtain ⟨rfl, rfl⟩ | ⟨b, a, rfl, ha, rfl⟩ | ⟨a, -, -, rfl⟩ | ⟨-, -, rfl⟩ | ⟨-, rfl⟩ :=
      exec_running_cases hs h
    · exact .inl ⟨rfl, rfl⟩
    · exact .inr ⟨b, a, rfl, ha, rfl⟩
    all_goals exact absurd rfl hacc
  · cases (exec_of_faulted hs i).symm.trans h
    exact absurd rfl hacc

end Sys2Proof.Machine
end

section
/-! SUPPORT. Command words performed one after another, and the call (42_host_call.md R80). -/

namespace Sys2Proof.Machine

@[simp] theorem performWords_nil (s : State) : performWords [] s = .next s := rfl

theorem performWords_cons_of_next {s t : State} {w : CommandWord} (h : commandStep s w = .next t)
    (ws : List CommandWord) : performWords (w :: ws) s = performWords ws t := by
  rw [performWords, h]

theorem performWords_append_of_next {s t : State} {ws : List CommandWord}
    (h : performWords ws s = .next t) (vs : List CommandWord) :
    performWords (ws ++ vs) s = performWords vs t := by
  induction ws generalizing s with
  | nil =>
    cases h
    rfl
  | cons w ws ih =>
    cases hw : commandStep s w with
    | next u =>
      rw [performWords_cons_of_next hw] at h
      rw [List.cons_append, performWords_cons_of_next hw, ih h]
    | fault r => cases r
    | refused r => simp [performWords, hw] at h

/-- BYTE commands from a defined accumulator fold their bytes into it and write nothing else (R70). -/
theorem performWords_byteWords (bs : List Byte) {s : State} (hs : s.running) (a : Word) :
    performWords (byteWords bs) (s.setAcc a) = .next (s.setAcc (crcFold a bs)) := by
  induction bs generalizing a with
  | nil => rfl
  | cons b bs ih =>
    have hb : commandStep (s.setAcc a) (encode (.byte b)) = .next (s.setAcc (byteStep a b)) :=
      (commandStep_encode rfl _).trans
        (exec_byte_of_some (s := s.setAcc a) hs rfl b)
    exact (performWords_cons_of_next hb _).trans (ih (byteStep a b))

/-- The commands of a call leave the checksum in `acc` and respond with it once (R80). -/
theorem performWords_callWords (bs : List Byte) {s : State} (hs : s.running) :
    performWords (callWords bs) s =
      .next ((s.setAcc (checksum bs)).respond (readResult (checksum bs))) := by
  have hinit : commandStep s (encode .init) = .next (s.setAcc initValue) :=
    (commandStep_encode rfl _).trans (exec_init_of_running hs)
  have hread : commandStep (s.setAcc (checksum bs)) (encode .read) =
      .next ((s.setAcc (checksum bs)).respond (readResult (checksum bs))) :=
    (commandStep_encode rfl _).trans
      (exec_read_of_some (s := s.setAcc (checksum bs)) hs rfl)
  rw [callWords, performWords_cons_of_next hinit,
    performWords_append_of_next (performWords_byteWords bs hs initValue), ← checksum,
    performWords_cons_of_next hread, performWords_nil]

/-- A response that has just been delivered is the one a caller sees. -/
theorem responseSince_of_append {s t : State} {v : Word} (h : t.responses = s.responses ++ [v]) :
    responseSince s t = some v := by
  simp [responseSince, h]

/-- A call with a checked input, made while no fault is recorded: its value and the state it leaves. -/
theorem crc16_of_running {x : List Nat} {bs : List Byte} (hx : checkInput x = .ok bs)
    {s : State} (hs : s.running) :
    crc16 x s = .ok (.next
      { value := some (readResult (checksum bs)),
        state := (s.setAcc (checksum bs)).respond (readResult (checksum bs)) }) := by
  simp only [crc16, hx, performWords_callWords bs hs]
  rw [responseSince_of_append rfl]

/-- A call that returns, from a state with no fault recorded: its input was accepted, and the value is
read off the input's bytes; the fault status is as it was. -/
theorem crc16_next {x : List Nat} {s : State} {r : CallResult} (hs : s.running)
    (h : crc16 x s = .ok (.next r)) :
    ∃ bs, checkInput x = .ok bs ∧ r.value = some (readResult (checksum bs)) ∧ r.state.running := by
  cases hx : checkInput x with
  | error e => simp [crc16, hx] at h
  | ok bs =>
    cases (crc16_of_running hx hs).symm.trans h
    exact ⟨bs, rfl, rfl, hs⟩

/-- Two calls over one input, from any two states with no fault recorded, return one value (R86). -/
theorem crc16_value_eq {x : List Nat} {s₁ s₂ : State} {r₁ r₂ : CallResult}
    (hs₁ : s₁.running) (hs₂ : s₂.running)
    (h₁ : crc16 x s₁ = .ok (.next r₁)) (h₂ : crc16 x s₂ = .ok (.next r₂)) : r₁.value = r₂.value := by
  obtain ⟨bs, hx, hv₁, -⟩ := crc16_next hs₁ h₁
  obtain ⟨bs', hx', hv₂, -⟩ := crc16_next hs₂ h₂
  cases hx.symm.trans hx'
  rw [hv₁, hv₂]

end Sys2Proof.Machine
end

section
/-! SUPPORT. The codes of the fault status on the status port (10_state.md R18). -/

namespace Sys2Proof.Machine

theorem faultBits_ne_reserved (f : FaultCode) : faultBits f ≠ 0b11#2 := by
  cases f <;> decide

@[simp] theorem faultOfBits_faultBits (f : FaultCode) : faultOfBits (faultBits f) = some f := by
  cases f <;> rfl

theorem faultOfBits_eq_none_iff : ∀ b : BitVec 2, faultOfBits b = none ↔ b = 0b11#2 := by
  decide

theorem step_reset_event (s : State) (es : List HostEvent) :
    step (s.setInbox (.reset :: es)) = .next (applyReset (s.setInbox es)) := rfl

end Sys2Proof.Machine
end

section
/-! PROOFS. The statements about the state (10_state.md). -/

namespace Sys2Proof.Machine

/-- Settles O42, from what `step` can do and from which commands change `acc`. -/
theorem accumulatorHasThreeWriters : Obligations.AccumulatorHasThreeWriters := by
  intro s t h hacc
  obtain ⟨-, hstep⟩ | ⟨w, es, hbox, hstep⟩ | ⟨es, hbox, hstep⟩ | ⟨w, es, hbox, hstep⟩ :=
    step_cases s
  · cases hstep.symm.trans h
    exact absurd rfl hacc
  · obtain ⟨hinit, hval⟩ | ⟨b, a, hbyte, ha, hval⟩ :=
      exec_changes_acc (hstep.symm.trans h) hacc
    · cases eq_encode_of_decode_eq hinit
      exact .inl ⟨es, hbox, hval⟩
    · cases eq_encode_of_decode_eq hbyte
      exact .inr (.inl ⟨es, b, a, hbox, ha, hval⟩)
  · cases hstep.symm.trans h
    exact .inr (.inr ⟨es, 0, .inl hbox, rfl⟩)
  · cases hstep.symm.trans h
    exact .inr (.inr ⟨es, w, .inr hbox, rfl⟩)

/-- Settles O43: a faulted engine performs no word, so of what `step` can do only a reset is left. -/
theorem onlyResetClearsAFault : Obligations.OnlyResetClearsAFault := by
  intro s t hs h
  obtain ⟨-, hstep⟩ | ⟨w, es, -, hstep⟩ | ⟨es, hbox, hstep⟩ | ⟨w, es, hbox, hstep⟩ :=
    step_cases s
  · cases hstep.symm.trans h
    exact .inl ⟨rfl, rfl, rfl⟩
  · rw [hstep, commandStep_of_faulted (s := s.setInbox es) hs] at h
    cases h
    exact .inl ⟨rfl, rfl, rfl⟩
  · cases hstep.symm.trans h
    exact .inr ⟨rfl, es, 0, .inl hbox⟩
  · cases hstep.symm.trans h
    exact .inr ⟨rfl, es, w, .inr hbox⟩

/-- Settles O50: the INIT of a call erases what `acc` was, and a call leaves no fault, so a second call
is one more call from a state with no fault recorded. -/
theorem callValueDependsOnInputAlone : Obligations.CallValueDependsOnInputAlone := by
  refine ⟨fun _ _ _ _ _ hs₁ hs₂ h₁ h₂ => crc16_value_eq hs₁ hs₂ h₁ h₂, ?_⟩
  intro s x r₁ r₂ hs h₁ h₂
  obtain ⟨-, -, -, hr₁⟩ := crc16_next hs h₁
  exact crc16_value_eq hs hr₁ h₁ h₂

/-- Settles O26: the codes by cases on the status, stickiness because a faulted engine performs
nothing. -/
theorem faultStatusCodes : Obligations.FaultStatusCodes := by
  refine ⟨rfl, rfl, rfl, fun s => ⟨rfl, faultBits_ne_reserved s.fault⟩, faultOfBits_faultBits,
    faultOfBits_eq_none_iff, ?sticky, fun s es => ⟨_, step_reset_event s es, rfl⟩⟩
  case sticky =>
    intro i s t hs h
    cases (exec_of_faulted hs i).symm.trans h
    rfl

/-- Settles O37, from the fields of the reset state. -/
theorem resetState : Obligations.ResetState :=
  ⟨State.reset_acc, State.reset_fault, congrArg faultBits State.reset_fault⟩

/-- Settles O38: `acc` is UNDEF at reset, whatever the fault status. -/
theorem faultConsistentAtReset : Obligations.FaultConsistentAtReset :=
  fun _ => State.reset_acc

end Sys2Proof.Machine
end

section
/-! SUPPORT. The feedback loop is linear over GF(2) and injective (40_feedback_loop.md R64, R65). -/

namespace Sys2Proof.Machine

/-- The feedback of a round is linear in the sampled bit. -/
theorem feedback_xor (p q : Bool) :
    (if p ^^ q then poly else 0#16) = (if p then poly else 0#16) ^^^ (if q then poly else 0#16) := by
  cases p <;> cases q <;> rfl

theorem crcRound_xor (x y : Word) : crcRound (x ^^^ y) = crcRound x ^^^ crcRound y := by
  rw [crcRound_eq, crcRound_eq x, crcRound_eq y, BitVec.ushiftRight_xor_distrib,
    BitVec.getLsbD_xor, feedback_xor]
  ac_rfl

theorem rounds_xor (n : Nat) (x y : Word) : rounds n (x ^^^ y) = rounds n x ^^^ rounds n y := by
  induction n generalizing x y with
  | zero => rfl
  | succ n ih => rw [rounds_succ, crcRound_xor, ih, rounds_succ, rounds_succ]

theorem step8_xor (x y : Word) : step8 (x ^^^ y) = step8 x ^^^ step8 y :=
  rounds_xor roundsPerByte x y

theorem byteStep_eq_xor (a : Word) (b : Byte) :
    byteStep a b = step8 a ^^^ step8 (b.setWidth 16) := step8_xor a (b.setWidth 16)

/-- The feedback constant has bit 15 set and the shifted value has not, so bit 15 after a round is the
bit that the round sampled (R65). -/
theorem crcRound_getLsbD_15 (a : Word) : (crcRound a).getLsbD 15 = a.getLsbD 0 := by
  rw [crcRound_eq]
  cases a.getLsbD 0 <;> simp [poly]

/-- Shifting left undoes the shift right, but for the bit shifted out. -/
theorem ushiftRight_shiftLeft_or_bit (a : Word) :
    (a >>> 1 <<< 1) ||| (if a.getLsbD 0 then 1#16 else 0#16) = a := by
  ext i hi
  cases i with
  | zero => cases h : a.getLsbD 0 <;> simp [← BitVec.getLsbD_eq_getElem, h]
  | succ i => cases a.getLsbD 0 <;> simp [Nat.add_comm, BitVec.getLsbD_eq_getElem hi]

theorem unround_crcRound (a : Word) : unround (crcRound a) = a := by
  have shifted : (if a.getLsbD 0 then crcRound a ^^^ poly else crcRound a) = a >>> 1 := by
    rw [crcRound_eq]
    cases a.getLsbD 0 <;> simp
  rw [unround, crcRound_getLsbD_15, shifted, ushiftRight_shiftLeft_or_bit]

theorem crcRound_injective : Function.Injective crcRound :=
  Function.LeftInverse.injective unround_crcRound

theorem rounds_injective (n : Nat) : Function.Injective (rounds n) := by
  induction n with
  | zero => exact Function.injective_id
  | succ n ih => exact ih.comp crcRound_injective

theorem step8_injective : Function.Injective step8 := rounds_injective roundsPerByte

theorem byteStep_injective (b : Byte) : Function.Injective fun a => byteStep a b :=
  fun _ _ h => (BitVec.xor_left_inj (b.setWidth 16)).mp (step8_injective h)

theorem crcFold_injective (x : List Byte) : Function.Injective fun a => crcFold a x := by
  induction x with
  | nil => exact Function.injective_id
  | cons b rest ih => exact ih.comp (byteStep_injective b)

end Sys2Proof.Machine
end

section
/-! SUPPORT. Two bytes folded in either order. The byte of difference between them would have to be a fixed
point of eight rounds, and below 0x100 only zero is one (40_feedback_loop.md R68). -/

namespace Sys2Proof.Machine

/-- Of the fixed points of eight rounds (R68), zero is the only one below 0x100. -/
theorem byte_eq_zero_of_tableEntry_eq :
    ∀ d : Byte, tableEntry d = d.setWidth 16 → d = 0x00#8 := by
  decide

/-- After two byte steps, the first byte has gone through the rounds once more than the second. -/
theorem byteStep_byteStep (a : Word) (b₁ b₂ : Byte) :
    byteStep (byteStep a b₁) b₂ = step8 (step8 a ^^^ (tableEntry b₁ ^^^ b₂.setWidth 16)) := by
  rw [byteStep, byteStep_eq_xor, ← tableEntry, BitVec.xor_assoc]

theorem tableEntry_xor (b₁ b₂ : Byte) :
    tableEntry (b₁ ^^^ b₂) = tableEntry b₁ ^^^ tableEntry b₂ := by
  rw [tableEntry, BitVec.setWidth_xor, step8_xor, ← tableEntry, ← tableEntry]

theorem xor_eq_xor_of_cross {w : Nat} {p q x y : BitVec w} (h : p ^^^ y = q ^^^ x) :
    p ^^^ q = x ^^^ y := by
  apply BitVec.xor_eq_zero_iff.mp
  calc p ^^^ q ^^^ (x ^^^ y)
      = (p ^^^ y) ^^^ (q ^^^ x) := by ac_rfl
    _ = 0#w := by rw [h, BitVec.xor_self]

/-- Byte steps commute only on equal bytes. -/
theorem eq_of_byteStep_comm {a : Word} {b₁ b₂ : Byte}
    (h : byteStep (byteStep a b₁) b₂ = byteStep (byteStep a b₂) b₁) : b₁ = b₂ := by
  rw [byteStep_byteStep, byteStep_byteStep] at h
  have crossed : tableEntry b₁ ^^^ b₂.setWidth 16 = tableEntry b₂ ^^^ b₁.setWidth 16 :=
    (BitVec.xor_right_inj (step8 a)).mp (step8_injective h)
  have fixed : tableEntry (b₁ ^^^ b₂) = (b₁ ^^^ b₂).setWidth 16 := by
    rw [tableEntry_xor, BitVec.setWidth_xor, xor_eq_xor_of_cross crossed]
  exact BitVec.xor_eq_zero_iff.mp (byte_eq_zero_of_tableEntry_eq _ fixed)

end Sys2Proof.Machine
end

section
/-! SUPPORT. Every step answers a next state (41_commands.md R77), of one engine and of one among several
(20_memory.md R41). -/

namespace Sys2Proof.Machine

theorem performing_total {c : State → Result} (hc : ∀ s, ∃ t, c s = .next t) (s : State) :
    ∃ t, performing s c = .next t := by
  by_cases hs : s.running
  · rw [performing_of_running hs]
    exact hc s
  · exact ⟨s, performing_of_faulted hs c⟩

theorem withAcc_total {use : Word → Result} (huse : ∀ a, ∃ t, use a = .next t) (s : State) :
    ∃ t, withAcc s use = .next t := by
  cases ha : s.acc with
  | some a =>
    rw [withAcc_of_some ha]
    exact huse a
  | none => exact ⟨_, withAcc_of_undef ha use⟩

theorem exec_total (i : Instr) (s : State) : ∃ t, exec i s = .next t := by
  cases i with
  | init => exact performing_total (fun _ => ⟨_, rfl⟩) s
  | byte | read => exact performing_total (withAcc_total fun _ => ⟨_, rfl⟩) s
  | reservedOp11 | reservedOp00 | reservedOp10 =>
    exact performing_total (fun s => ⟨_, raise_eq .reservedCommand s⟩) s

theorem step_total (s : State) : ∃ t, step s = .next t := by
  obtain ⟨-, h⟩ | ⟨w, es, -, h⟩ | ⟨es, -, h⟩ | ⟨w, es, -, h⟩ := step_cases s
  · exact ⟨_, h⟩
  · rw [h]
    exact exec_total (decode w) (s.setInbox es)
  · exact ⟨_, h⟩
  · exact ⟨_, h⟩

/-- The engine of index `k` takes its own step, in its own place in the list. -/
theorem stepEngine_of_next {es : Engines} {k : Nat} {s t : State} (hk : es[k]? = some s)
    (h : step s = .next t) : stepEngine k es = .next (es.set k t) := by
  induction es generalizing k with
  | nil => simp at hk
  | cons e es ih =>
    cases k with
    | zero =>
      obtain rfl : e = s := by simpa using hk
      simp [stepEngine, h]
    | succ k => simp [stepEngine, ih (by simpa using hk)]

end Sys2Proof.Machine
end

section
/-! SUPPORT. READ of an undefined accumulator (41_commands.md R75), and the step at a command word
(20_memory.md R41). -/

namespace Sys2Proof.Machine

theorem exec_read_of_undef {s : State} (hs : s.running) (ha : s.acc = none) :
    exec .read s = .next (s.setFault .notInitialised) := by
  simp only [exec, execRead, performing_of_running hs, withAcc_of_undef ha]

/-- A command word that is the next event leaves the channel and is performed (R41, R77). -/
theorem step_of_command {s : State} {w : CommandWord} {es : List HostEvent}
    (h : s.inbox = .command w :: es) : step s = commandStep (s.setInbox es) w := by
  simp [step, takeEvent, h]

end Sys2Proof.Machine
end

section
/-! PROOFS. The statements about the engine's storage (20_memory.md). -/

namespace Sys2Proof.Machine

/-- Settles O9: the value the rounds start from is the accumulator XORed with the zero-extended byte,
whose bits 15 to 8 are zero. -/
theorem byteEntersTheLowEightBits : Obligations.ByteEntersTheLowEightBits := by
  intro a b
  refine ⟨a ^^^ b.setWidth 16, rfl, fun i hi => ?low, fun i hi _ => ?high⟩
  case low =>
    have hi16 : i < 16 := by omega
    simp [hi16]
  case high => simp [BitVec.getLsbD_of_ge b i hi]

/-- Settles O16: the bytes that follow keep different values different, and two byte steps commute only
on equal bytes. -/
theorem adjacentByteOrderMatters : Obligations.AdjacentByteOrderMatters := by
  intro a b₁ b₂ rest hne h
  rw [crcFold_cons, crcFold_cons, crcFold_cons, crcFold_cons] at h
  exact hne (eq_of_byteStep_comm (crcFold_injective rest h))

/-- Settles O55: the list after the step is the list with the engine's own next state in its place. -/
theorem enginesShareNothing : Obligations.EnginesShareNothing := by
  intro es k s hk
  obtain ⟨t, ht⟩ := step_total s
  obtain ⟨hlt, -⟩ := List.getElem?_eq_some_iff.mp hk
  exact ⟨es.set k t, t, stepEngine_of_next hk ht, ht, List.getElem?_set_self hlt,
    List.length_set, fun j hj => List.getElem?_set_ne hj.symm⟩

/-- Settles O25: READ leaves `acc`, so a second READ responds the same; INIT loads one constant; the byte
0x01 issued twice from 0x0000 gives first 0xC0C1 and then another value. -/
theorem sideEffectsAndIdempotency : Obligations.SideEffectsAndIdempotency := by
  refine ⟨?read, ?readUndef, ?initTwice, ?byteTwice⟩
  case read =>
    intro s t hs hacc h
    obtain ⟨a, ha⟩ := Option.ne_none_iff_exists'.mp hacc
    cases (exec_read_of_some hs ha).symm.trans h
    exact ⟨rfl, rfl, readResult a, _, rfl,
      exec_read_of_some (s := s.respond (readResult a)) hs ha, rfl⟩
  case readUndef =>
    intro s ha hs
    exact exec_read_of_undef hs ha
  case initTwice =>
    intro s t h
    by_cases hs : s.running
    · cases (exec_init_of_running hs).symm.trans h
      exact exec_init_of_running (s := s.setAcc initValue) hs
    · cases (exec_of_faulted hs .init).symm.trans h
      exact h
  case byteTwice =>
    have once : byteStep 0x0000#16 0x01#8 = 0xC0C1#16 := by decide
    have twice : byteStep 0xC0C1#16 0x01#8 = 0x50C0#16 := by decide
    refine ⟨State.reset.setAcc 0x0000#16, _, _, 0x01#8, exec_byte_of_some rfl rfl _,
      exec_byte_of_some rfl rfl _, ?_⟩
    rw [State.setAcc_acc, State.setAcc_acc, once, twice]
    decide

/-- Settles O33: the step takes the word from the channel and performs it, and the word of a well-formed
command decodes to that command. -/
theorem stepPerformsTheDecodedCommand : Obligations.StepPerformsTheDecodedCommand := by
  refine ⟨fun _ _ _ hbox => step_of_command hbox, fun s i es hwf hbox => ?_⟩
  exact (step_of_command hbox).trans (commandStep_encode hwf (s.setInbox es))

end Sys2Proof.Machine
end

section
/-! SUPPORT. The decoder by the numbers of a word's two fields (30_encoding.md R45, R52), and which words
are reserved (R49). -/

namespace Sys2Proof

open Sys2Proof.Laws.EncodeFields Sys2Proof.Machine

theorem encode_eq_commandWord (i : Instr) : encode i = commandWord (opOf i) (dataOf i) := by
  cases i <;> rfl

theorem encode_byte_toNat (b : Byte) : (encode (.byte b)).toNat = 0x100 + b.toNat :=
  commandWord_toNat 0b01 b

theorem opOf_decode (w : CommandWord) : opOf (decode w) = opField w := by
  rw [← opField_commandWord (opOf (decode w)) (dataOf (decode w)), ← encode_eq_commandWord,
    encode_decode]

theorem dataOf_decode (w : CommandWord) : dataOf (decode w) = dataField w := by
  rw [← dataField_commandWord (opOf (decode w)) (dataOf (decode w)), ← encode_eq_commandWord,
    encode_decode]

theorem decode_wf (w : CommandWord) : (decode w).wf = true := by
  unfold decode
  dsimp only
  split_ifs with op0 data0 op1 op2 data0
  · rfl
  · simpa [Instr.wf] using data0
  · rfl
  · rfl
  · simpa [Instr.wf] using data0
  · rfl

/-- A word decodes to the well-formed command that has its two fields. -/
theorem decode_of_fields {w : CommandWord} {i : Instr} (hwf : i.wf = true)
    (hop : w.toNat / 256 = (opOf i).toNat) (hdata : w.toNat % 256 = (dataOf i).toNat) :
    decode w = i := by
  have word : w = encode i := by
    apply BitVec.eq_of_toNat_eq
    rw [encode_eq_commandWord, commandWord_toNat, ← hop, ← hdata]
    omega
  rw [word, decode_encode hwf]

/-- A nonzero `DATA` number is a nonzero byte, as the well-formedness of two reserved rows asks (R49). -/
theorem ofNat_data_bne_zero {n : Nat} (h : n % 256 ≠ 0) :
    (BitVec.ofNat 8 (n % 256) != 0x00#8) = true := by
  simpa [BitVec.toNat_eq] using h

/-- Which well-formed commands are reserved, by their fields (R49). -/
theorem reservedInstr_iff {i : Instr} (h : i.wf = true) :
    reservedInstr i = true ↔
      opOf i = 0b11 ∨ (opOf i = 0b00 ∧ dataOf i ≠ 0x00) ∨ (opOf i = 0b10 ∧ dataOf i ≠ 0x00) := by
  cases i with
  | init | byte | read | reservedOp11 => simp [reservedInstr, opOf, dataOf]
  | reservedOp00 | reservedOp10 => simpa [reservedInstr, opOf, dataOf, Instr.wf] using h

theorem reservedWord_iff (w : CommandWord) : reservedWord w = true ↔
    w.toNat / 256 = 3 ∨ (w.toNat / 256 = 0 ∧ w.toNat % 256 ≠ 0) ∨
      (w.toNat / 256 = 2 ∧ w.toNat % 256 ≠ 0) := by
  rw [reservedWord, reservedInstr_iff (decode_wf w), opOf_decode, dataOf_decode]
  simp only [ne_eq, BitVec.toNat_eq, opField_toNat, dataField_toNat]
  rfl

end Sys2Proof
end

section
/-! SUPPORT. How many words are reserved (30_encoding.md R49), counted opcode by opcode. -/

namespace Sys2Proof.Machine

/-- A count over `n * m` numbers is the sum of the counts over `m` blocks of `n`. -/
theorem countP_range_mul {p : Nat → Bool} {q : Nat → Nat → Bool} (n m : Nat)
    (h : ∀ k < m, ∀ d < n, p (n * k + d) = q k d) :
    (List.range (n * m)).countP p = ∑ k ∈ Finset.range m, (List.range n).countP (q k) := by
  induction m with
  | zero => rfl
  | succ m ih =>
    rw [Nat.mul_succ, List.range_add, List.countP_append, List.countP_map, Finset.sum_range_succ,
      ih fun k hk => h k (by omega)]
    congr 1
    exact List.countP_congr fun d hd => by
      rw [Function.comp_apply, h m (by omega) d (List.mem_range.mp hd)]

theorem countP_range_ne_zero (n : Nat) : (List.range (n + 1)).countP (· != 0) = n := by
  rw [List.range_succ_eq_map, List.countP_cons_of_neg (by decide), List.countP_map]
  simp [Function.comp_def]

/-- For each opcode, the test a `DATA` number passes when the word is reserved (R49);
`reservedWord_ofNat` ties it to the decoder. -/
def reservedFields (op : Nat) : Nat → Bool :=
  if op = 3 then fun _ => true else if op = 1 then fun _ => false else (· != 0)

theorem reservedWord_ofNat {op data : Nat} (hop : op < 4) (hdata : data < 256) :
    reservedWord (BitVec.ofNat 10 (256 * op + data)) = reservedFields op data := by
  have value : (BitVec.ofNat 10 (256 * op + data)).toNat = 256 * op + data :=
    Nat.mod_eq_of_lt (by omega)
  rw [Bool.eq_iff_iff, reservedWord_iff, value, show (256 * op + data) / 256 = op by omega,
    show (256 * op + data) % 256 = data by omega]
  unfold reservedFields
  split_ifs with op3 op1
  · simp [op3]
  · simp [op1]
  · rw [bne_iff_ne]
    omega

/-- The reserved words of one opcode: all 256, none, or all but the one with `DATA = 0x00`. -/
theorem countP_reservedFields (op : Nat) : (List.range 256).countP (reservedFields op) =
    if op = 3 then 256 else if op = 1 then 0 else 255 := by
  unfold reservedFields
  split_ifs with op3 op1
  · simp
  · simp
  · exact countP_range_ne_zero 255

/-- The reserved words whose opcode passes a test. -/
theorem count_reservedWord (f : Nat → Bool) :
    ((List.range 1024).filter fun n => reservedWord (BitVec.ofNat 10 n) && f (n / 256)).length =
      ∑ op ∈ Finset.range 4,
        if f op then if op = 3 then 256 else if op = 1 then 0 else 255 else 0 := by
  rw [← List.countP_eq_length_filter]
  refine (countP_range_mul (q := fun op data => reservedFields op data && f op) 256 4
    fun op hop data hdata => ?fields).trans (Finset.sum_congr rfl fun op _ => ?block)
  case fields => rw [reservedWord_ofNat hop hdata, show (256 * op + data) / 256 = op by omega]
  case block => cases f op <;> simp [countP_reservedFields]

theorem count_reservedWord_all :
    ((List.range 1024).filter fun n => reservedWord (BitVec.ofNat 10 n)).length = 766 := by
  have total := count_reservedWord fun _ => true
  simp only [Bool.and_true] at total
  exact total

/-- The legal words are the rest of the 1024. -/
theorem count_legalWord :
    ((List.range 1024).filter fun n => !reservedWord (BitVec.ofNat 10 n)).length = 258 := by
  have total := List.length_eq_length_filter_add (l := List.range 1024)
    fun n => reservedWord (BitVec.ofNat 10 n)
  rw [count_reservedWord_all, List.length_range] at total
  omega

end Sys2Proof.Machine
end

section
/-! SUPPORT. What a reserved word does (30_encoding.md R49, 60_exceptions.md R90), and which command
responds (30_encoding.md R47). -/

namespace Sys2Proof.Machine

theorem exec_reserved_of_running {i : Instr} {s : State} (hi : reservedInstr i = true)
    (hs : s.running) : exec i s = .next (s.setFault .reservedCommand) := by
  cases i with
  | init | byte | read => cases hi
  | reservedOp11 | reservedOp00 | reservedOp10 => exact performing_of_running hs _

theorem reservedInstr_of_exec {i : Instr} {s t : State} (hs : s.running)
    (h : exec i s = .next t) (ht : t.fault = .reservedCommand) : reservedInstr i = true := by
  obtain ⟨-, rfl⟩ | ⟨b, a, -, -, rfl⟩ | ⟨a, -, -, rfl⟩ | ⟨-, -, rfl⟩ | ⟨hi, -⟩ :=
    exec_running_cases hs h
  · cases hs.symm.trans ht
  · cases hs.symm.trans ht
  · cases hs.symm.trans ht
  · cases ht
  · exact hi

/-- The two bytes of the output assembly make up the accumulator again (R75). -/
theorem readResult_eq (a : Word) : readResult a = a := by
  apply BitVec.eq_of_toNat_eq
  rw [readResult, assembleOutput, highByte_toNat, lowByte_toNat, Nat.mod_add_div',
    BitVec.toNat_ofNat, Nat.mod_eq_of_lt a.isLt]

/-- A command that changes the responses is READ of a defined accumulator (R47, R75). -/
theorem exec_changes_responses {i : Instr} {s t : State} (h : exec i s = .next t)
    (hresp : t.responses ≠ s.responses) :
    s.running ∧ i = .read ∧ ∃ a, s.acc = some a ∧ t.responses = s.responses ++ [a] := by
  by_cases hs : s.running
  · obtain ⟨-, rfl⟩ | ⟨b, a, -, -, rfl⟩ | ⟨a, hi, ha, rfl⟩ | ⟨-, -, rfl⟩ | ⟨-, rfl⟩ :=
      exec_running_cases hs h
    · exact absurd rfl hresp
    · exact absurd rfl hresp
    · exact ⟨hs, hi, a, ha, by rw [State.respond_responses, readResult_eq]⟩
    all_goals exact absurd rfl hresp
  · cases (exec_of_faulted hs i).symm.trans h
    exact absurd rfl hresp

end Sys2Proof.Machine
end

section
/-! SUPPORT. A natural number offered as a command word (30_encoding.md R57). -/

namespace Sys2Proof

theorem transcribe_of_lt {n : Nat} (h : n < 1024) : transcribe n = .ok (BitVec.ofNat 10 n) :=
  if_pos h

theorem transcribe_of_wide {n : Nat} (h : 1024 ≤ n) :
    transcribe n = .error (.widerThanFormat n) := if_neg (Nat.not_lt.mpr h)

theorem transcribe_toNat (w : CommandWord) : transcribe w.toNat = .ok w := by
  rw [transcribe_of_lt w.isLt, BitVec.ofNat_toNat, BitVec.setWidth_eq]

theorem decodeNat_of_transcribe {n : Nat} {w : CommandWord} (h : transcribe n = .ok w) :
    decodeNat n = .ok (decode w) := by
  rw [decodeNat, h]

theorem decodeNat_of_wide {n : Nat} (h : 1024 ≤ n) :
    decodeNat n = .error (.widerThanFormat n) := by
  rw [decodeNat, transcribe_of_wide h]

namespace Machine

theorem withFetchWord_toNat (s : State) (nbits : Nat) (w : CommandWord) :
    s.withFetchWord nbits w.toNat = s.issueNext w := by
  rw [State.withFetchWord, transcribe_toNat]

theorem withFetchWord_of_wide (s : State) (nbits : Nat) {n : Nat} (h : 1024 ≤ n) :
    s.withFetchWord nbits n = s := by
  rw [State.withFetchWord, transcribe_of_wide h]

/-- A word placed next is performed at the state it was placed in. -/
theorem step_issueNext (s : State) (w : CommandWord) :
    step (s.issueNext w) = exec (decode w) s :=
  step_of_command (State.issueNext_inbox s w)

end Machine
end Sys2Proof
end

section
/-! SUPPORT. The check of a list of values and the words of its bytes (30_encoding.md R55, 42_host_call.md
R81). -/

namespace Sys2Proof.Machine

theorem collectBytes_of_le (k : Nat) {x : List Nat} (hx : ∀ n ∈ x, n ≤ 255) :
    collectBytes k (x.map hostByte) = .ok (x.map (BitVec.ofNat 8)) := by
  induction x generalizing k with
  | nil => rfl
  | cons n x ih =>
    obtain ⟨hn, hx⟩ := List.forall_mem_cons.mp hx
    simp [collectBytes, hostByte, hn, ih (k + 1) hx]

theorem collectBytes_of_mem_none (k : Nat) {x : List (Option Byte)} (hx : none ∈ x) :
    ∃ e, collectBytes k x = .error e := by
  induction x generalizing k with
  | nil => cases hx
  | cons o x ih =>
    cases o with
    | none => exact ⟨_, rfl⟩
    | some b =>
      obtain ⟨e, he⟩ := ih (k + 1) (by simpa using hx)
      exact ⟨e, by simp only [collectBytes, he]⟩

theorem checkInput_of_le {x : List Nat} (hx : ∀ n ∈ x, n ≤ 255) :
    checkInput x = .ok (x.map (BitVec.ofNat 8)) := collectBytes_of_le 0 hx

theorem checkInput_of_mem_wide {x : List Nat} (hx : ∃ n ∈ x, 255 < n) :
    ∃ e, checkInput x = .error e := by
  obtain ⟨n, hn, wide⟩ := hx
  exact collectBytes_of_mem_none 0 (List.mem_map.mpr ⟨n, hn, if_neg (Nat.not_le.mpr wide)⟩)

/-- Elements of an operand that are numbers are checked as the host's values are. -/
theorem immBytes_values (x : List Nat) : immBytes (x.map .value) = checkInput x := by
  rw [immBytes, checkInput, List.map_map]
  rfl

theorem encode_byte_ofNat {n : Nat} (hn : n ≤ 255) :
    encode (.byte (BitVec.ofNat 8 n)) = BitVec.ofNat 10 (0x100 + n) := by
  apply BitVec.eq_of_toNat_eq
  rw [encode_byte_toNat, BitVec.toNat_ofNat, BitVec.toNat_ofNat]
  omega

theorem byteWords_ofNat {x : List Nat} (hx : ∀ n ∈ x, n ≤ 255) :
    byteWords (x.map (BitVec.ofNat 8)) = x.map fun n => BitVec.ofNat 10 (0x100 + n) := by
  rw [byteWords, List.map_map]
  exact List.map_congr_left fun n hn => encode_byte_ofNat (hx n hn)

theorem callWords_ofNat {x : List Nat} (hx : ∀ n ∈ x, n ≤ 255) :
    callWords (x.map (BitVec.ofNat 8)) =
      0x000#10 :: (x.map (fun n => BitVec.ofNat 10 (0x100 + n)) ++ [0x200#10]) := by
  rw [callWords, byteWords_ofNat hx]
  rfl

end Sys2Proof.Machine
end

section
/-! SUPPORT. Lines of assembly: the tokens of a quoted string, and what a line that parses assembles to
(30_encoding.md R54, R55). -/

namespace Sys2Proof.Machine

/-- A line that can be read assembles to what it expands to. -/
theorem assembleLine_of_parsed {cs : List Char} {ts : List Token} {l : AsmLine}
    (hlex : lexLine (.plain []) cs = some ts) (hparse : parseTokens ts = some l) :
    assembleLine cs = l.expand.mapError .invalidInput := by
  simp only [assembleLine, hlex, hparse]
  cases l.expand <;> rfl

/-- Inside a string, every character up to the closing quote belongs to it. -/
theorem lexLine_string {cs : List Char} (hcs : doubleQuote ∉ cs) (pending : List Char) :
    lexLine (.string pending) (cs ++ [doubleQuote]) = some [.str (pending.reverse ++ cs)] := by
  induction cs generalizing pending with
  | nil => simp [lexLine, consToken, flushWord]
  | cons c cs ih =>
    obtain ⟨hc, hcs⟩ := not_or.mp (mt List.mem_cons.mpr hcs)
    rw [List.cons_append, lexLine, if_neg (Ne.symm hc), ih hcs, List.reverse_cons,
      List.append_assoc, List.singleton_append]

theorem lexLine_crc16 {cs : List Char} (hcs : doubleQuote ∉ cs) :
    lexLine (.plain []) (['C', 'R', 'C', '1', '6', ' ', doubleQuote] ++ cs ++ [doubleQuote]) =
      some [.word ['C', 'R', 'C', '1', '6'], .str cs] := by
  have mnemonic (rest : List Char) :
      lexLine (.plain []) (['C', 'R', 'C', '1', '6', ' ', doubleQuote] ++ rest) =
        endWord ['6', '1', 'C', 'R', 'C'] (endWord [] (lexLine (.string []) rest)) := rfl
  rw [List.append_assoc, mnemonic, lexLine_string hcs]
  rfl

/-- A line that parses as BYTE of the number `n` gives that byte's word, or `InvalidInput`. -/
theorem assembleLine_byte {cs : List Char} {ts : List Token} {n : Nat}
    (hlex : lexLine (.plain []) cs = some ts) (hparse : parseTokens ts = some (.byte (.value n))) :
    assembleLine cs = if n ≤ 255 then .ok [BitVec.ofNat 10 (0x100 + n)]
      else .error (.invalidInput { index := 0 }) := by
  rw [assembleLine_of_parsed hlex hparse, AsmLine.expand,
    show immBytes [.value n] = checkInput [n] from immBytes_values [n]]
  split_ifs with hn
  · rw [checkInput_of_le (by simpa using hn), ← encode_byte_ofNat hn]
    rfl
  · simp [checkInput, hostByte, hn, collectBytes, Except.mapError]

end Sys2Proof.Machine
end

section
/-! PROOFS. The statements about the encoding (30_encoding.md). -/

namespace Sys2Proof.Machine

/-- Settles O1: the two field numbers of a word name the one well-formed command with these fields, and
the encoder puts the fields together again. -/
theorem decodeAndEncodeAreInverse : Obligations.DecodeAndEncodeAreInverse := by
  refine ⟨fun w => ?decodes, fun _ => decode_encode, rfl, encode_byte_toNat, rfl⟩
  case decodes =>
    have data : w.toNat % 256 = (BitVec.ofNat 8 (w.toNat % 256)).toNat := by simp
    exact ⟨fun hop hdata => decode_of_fields rfl hop hdata,
      fun hop hdata => decode_of_fields (ofNat_data_bne_zero hdata) hop data,
      fun hop => decode_of_fields rfl hop data,
      fun hop hdata => decode_of_fields rfl hop hdata,
      fun hop hdata => decode_of_fields (ofNat_data_bne_zero hdata) hop data,
      fun hop => decode_of_fields rfl hop data, decode_wf w, encode_decode w⟩

/-- Settles O3: the reserved words are read off the fields and counted opcode by opcode; each does no more
than `raise`. -/
theorem reservedWordsAreExactlyThe766 : Obligations.ReservedWordsAreExactlyThe766 :=
  ⟨reservedWord_iff, count_reservedWord (· == 3), count_reservedWord (· == 0),
    count_reservedWord (· == 2), count_reservedWord_all, count_legalWord,
    fun _ _ hw hs => exec_reserved_of_running hw hs⟩

/-- Settles O41, from what `step` can do and from which commands change the responses. -/
theorem onlyReadResponds : Obligations.OnlyReadResponds := by
  intro s t h hresp
  obtain ⟨-, hstep⟩ | ⟨w, es, hbox, hstep⟩ | ⟨es, -, hstep⟩ | ⟨w, es, -, hstep⟩ := step_cases s
  · cases hstep.symm.trans h
    exact absurd rfl hresp
  · obtain ⟨hs, hread, a, ha, hval⟩ := exec_changes_responses (hstep.symm.trans h) hresp
    cases eq_encode_of_decode_eq hread
    exact ⟨es, a, hbox, hs, ha, hval⟩
  all_goals
    cases hstep.symm.trans h
    exact absurd rfl hresp

/-- Settles O52: both pseudo-instructions check their elements first, as the host's call does. -/
theorem pseudoInstructionsExpand : Obligations.PseudoInstructionsExpand := by
  refine ⟨fun x hx => ?inRange, fun x hx => ?outOfRange, rfl⟩
  case inRange =>
    simp only [AsmLine.expand, immBytes_values, checkInput_of_le hx, byteWords_ofNat hx,
      callWords_ofNat hx, and_self]
  case outOfRange =>
    obtain ⟨e, he⟩ := checkInput_of_mem_wide hx
    simp only [AsmLine.expand, immBytes_values, he]
    exact ⟨⟨e, rfl⟩, ⟨e, rfl⟩⟩

/-- Settles O53: the lexer gives the mnemonic and the string, whose codes all pass the check. -/
theorem crc16LineAssembles : Obligations.Crc16LineAssembles := by
  intro cs hquote hcodes
  have parsed : parseTokens [.word ['C', 'R', 'C', '1', '6'], .str cs] =
      some (.crc16 ((cs.map Char.toNat).map .value)) := by
    rw [List.map_map]
    rfl
  have codes : ∀ n ∈ cs.map Char.toNat, n ≤ 255 := List.forall_mem_map.mpr hcodes
  rw [assembleLine_of_parsed (lexLine_crc16 hquote) parsed, AsmLine.expand, immBytes_values,
    checkInput_of_le codes, List.map_map]
  rfl

/-- Settles O2: each of the seven words has the fields of the command named. -/
theorem encodingExamplesDecode : Obligations.EncodingExamplesDecode :=
  ⟨decode_of_fields rfl rfl rfl, decode_of_fields rfl rfl rfl, decode_of_fields rfl rfl rfl,
    decode_of_fields rfl rfl rfl, decode_of_fields rfl rfl rfl, decode_of_fields rfl rfl rfl,
    decode_of_fields rfl rfl rfl⟩

/-- Settles O4: transcription alone decides between the two. -/
theorem wideNaturalsAreRefused : Obligations.WideNaturalsAreRefused := fun n =>
  ⟨fun hn => ⟨BitVec.ofNat 10 n, Nat.mod_eq_of_lt hn, transcribe_of_lt hn,
      decodeNat_of_transcribe (transcribe_of_lt hn)⟩,
    fun hn => ⟨transcribe_of_wide hn, decodeNat_of_wide hn⟩⟩

/-- Settles O5: a word's own number is transcribed to that word, which the step then takes from the head of
the channel; a wide number is refused before either. -/
theorem tableWordIsTheNextCommand : Obligations.TableWordIsTheNextCommand := by
  refine fun s nbits => ⟨fun w => ⟨?decodes, ?runs⟩,
    fun n hn => ⟨?refused, withFetchWord_of_wide s nbits hn⟩⟩
  case decodes => rw [decodeTableWord, decodeNat_of_transcribe (transcribe_toNat w)]
  case runs => rw [withFetchWord_toNat, step_issueNext]
  case refused => rw [decodeTableWord, decodeNat_of_wide hn]

/-- Settles O27: a reserved command does no more than `raise`, and of what a command can do nothing else
records this code. -/
theorem reservedWordsRaiseReservedCommand : Obligations.ReservedWordsRaiseReservedCommand := by
  refine ⟨fun s data hs => ?running, fun s data hs => ?faulted, fun s w hs => ⟨?raises, ?only⟩, rfl⟩
  case running =>
    exact ⟨exec_reserved_of_running rfl hs, exec_reserved_of_running rfl hs,
      exec_reserved_of_running rfl hs⟩
  case faulted => exact ⟨exec_of_faulted hs _, exec_of_faulted hs _, exec_of_faulted hs _⟩
  case raises => exact fun hw => ⟨_, exec_reserved_of_running hw hs, rfl⟩
  case only =>
    rintro ⟨t, h, ht⟩
    exact reservedInstr_of_exec hs h ht

/-- Settles O54: each line lexes and parses as BYTE of a number. -/
theorem byteLineAssembles : Obligations.ByteLineAssembles :=
  ⟨fun c => assembleLine_byte (n := c.toNat) rfl rfl,
    (assembleLine_byte (n := 104) rfl rfl).trans (if_pos (by decide)),
    (assembleLine_byte (n := 0x68) rfl rfl).trans (if_pos (by decide)),
    (assembleLine_byte (n := 256) rfl rfl).trans (if_neg (by decide))⟩

end Sys2Proof.Machine
end

section
/-! SUPPORT. A round as a netlist (40_feedback_loop.md R60), rounds as the iteration of one round (R62), and
rounds that sample no bit: they only shift, which is what the table form rests on (R66). -/

namespace Sys2Proof.Machine

/-- Every output bit of a round: the next input bit, with the sampled bit fed back where the feedback
constant has a bit set (R58, R60). -/
theorem crcRound_getLsbD (a : Word) (i : Nat) :
    (crcRound a).getLsbD i = (a.getLsbD (i + 1) ^^ (a.getLsbD 0 && poly.getLsbD i)) := by
  rw [crcRound_eq, BitVec.getLsbD_xor, BitVec.getLsbD_ushiftRight, Nat.add_comm 1 i]
  cases a.getLsbD 0 <;> simp

/-- The feedback constant has bits 15, 13 and 0 set (R58). -/
theorem poly_getLsbD : ∀ i < 16, poly.getLsbD i = (i == 15 || i == 13 || i == 0) := by
  decide

/-- A round on the numbers: the sampled bit is the parity (R59). -/
theorem crcRound_toNat (a : Word) : (crcRound a).toNat =
    if a.toNat % 2 = 1 then a.toNat / 2 ^^^ 0xA001 else a.toNat / 2 := by
  have sampled : a.getLsbD 0 = decide (a.toNat % 2 = 1) := Nat.testBit_zero a.toNat
  have halved : (a >>> 1).toNat = a.toNat / 2 := Nat.shiftRight_eq_div_pow a.toNat 1
  rw [crcRound_eq, sampled, BitVec.toNat_xor, halved]
  by_cases odd : a.toNat % 2 = 1
  · simp [odd, poly]
  · simp [odd]

theorem rounds_eq_iterate (n : Nat) (x : Word) : rounds n x = crcRound^[n] x := by
  induction n generalizing x with
  | zero => rfl
  | succ n ih => rw [rounds_succ, ih, Function.iterate_succ_apply]

theorem step8_of_crcRound_fixed {x : Word} (h : crcRound x = x) : step8 x = x := by
  rw [step8, rounds_eq_iterate, Function.iterate_fixed h]

/-- A round that samples a zero only shifts. -/
theorem crcRound_of_even {x : Word} (h : x.getLsbD 0 = false) : crcRound x = x >>> 1 := by
  rw [crcRound_eq, h]
  exact BitVec.xor_zero

/-- Rounds that sample only zeros only shift. -/
theorem rounds_of_low_zeros {n : Nat} {x : Word} (h : ∀ i < n, x.getLsbD i = false) :
    rounds n x = x >>> n := by
  induction n generalizing x with
  | zero => simp
  | succ n ih =>
    have low : ∀ i < n, (x >>> 1).getLsbD i = false := fun i hi => by
      rw [BitVec.getLsbD_ushiftRight]
      exact h (1 + i) (by omega)
    rw [rounds_succ, crcRound_of_even (h 0 n.succ_pos), ih low, Nat.add_comm,
      BitVec.shiftRight_add]

end Sys2Proof.Machine
end

section
/-! SUPPORT. The table form (40_feedback_loop.md R66), which bytes tell apart (R67), and the fixed points of
eight rounds (R68). -/

namespace Sys2Proof.Machine

theorem and_0xFF_setWidth (x : Word) : (x &&& 0xFF#16).setWidth 8 = x.setWidth 8 := by
  rw [BitVec.setWidth_and]
  exact BitVec.and_allOnes

theorem zext_ushiftRight_8 (b : Byte) : b.setWidth 16 >>> 8 = 0#16 := by
  ext i hi
  simp

/-- With its low byte cleared, a word is only shifted by eight rounds. -/
theorem step8_clear_low (x : Word) :
    step8 (x ^^^ (x.setWidth 8).setWidth 16) = x >>> 8 := by
  have cleared : ∀ i < 8, (x ^^^ (x.setWidth 8).setWidth 16).getLsbD i = false := fun i hi => by
    have hi16 : i < 16 := by omega
    simp [hi, hi16]
  calc step8 (x ^^^ (x.setWidth 8).setWidth 16)
      = (x ^^^ (x.setWidth 8).setWidth 16) >>> 8 := rounds_of_low_zeros cleared
    _ = x >>> 8 := by
      rw [BitVec.ushiftRight_xor_distrib, zext_ushiftRight_8, BitVec.xor_zero]

/-- Eight rounds split by linearity: the high byte shifts down, the low byte is looked up (R66). -/
theorem step8_eq_table (x : Word) : step8 x = (x >>> 8) ^^^ tableEntry (x.setWidth 8) := by
  calc step8 x
      = step8 ((x ^^^ (x.setWidth 8).setWidth 16) ^^^ (x.setWidth 8).setWidth 16) := by
        rw [BitVec.xor_assoc, BitVec.xor_self, BitVec.xor_zero]
    _ = (x >>> 8) ^^^ tableEntry (x.setWidth 8) := by
        rw [step8_xor, step8_clear_low, ← tableEntry]

theorem byteStep_eq_byteStepByTable (a : Word) (b : Byte) : byteStep a b = byteStepByTable a b := by
  rw [byteStep, step8_eq_table, BitVec.ushiftRight_xor_distrib, zext_ushiftRight_8,
    BitVec.xor_zero, byteStepByTable]

theorem zext_injective : Function.Injective fun b : Byte => b.setWidth 16 :=
  Function.LeftInverse.injective (g := BitVec.setWidth 8) fun b => by simp

/-- From one accumulator value, distinct bytes give distinct byte steps (R67). -/
theorem byteStep_injective_right (a : Word) : Function.Injective (byteStep a) :=
  fun _ _ h => zext_injective ((BitVec.xor_right_inj a).mp (step8_injective h))

/-- A byte step with a zero byte is eight rounds. -/
theorem byteStep_zero (a : Word) : byteStep a 0x00#8 = step8 a :=
  congrArg step8 (BitVec.xor_zero (x := a))

/-- The only candidates for a fixed point, one for each low byte; two of them have that low byte. -/
theorem fixed_candidates : ∀ l : Byte,
    (tableEntry l ^^^ tableEntry l >>> 8).setWidth 8 = l →
      tableEntry l ^^^ tableEntry l >>> 8 = 0x0000#16 ∨
        tableEntry l ^^^ tableEntry l >>> 8 = 0xC001#16 := by
  decide

/-- The high byte of a fixed point is the high byte of its table entry, so its low byte determines it. -/
theorem eq_candidate_of_step8_fixed {a : Word} (h : step8 a = a) :
    a = tableEntry (a.setWidth 8) ^^^ tableEntry (a.setWidth 8) >>> 8 := by
  rw [step8_eq_table] at h
  have vanishes : a >>> 8 >>> 8 = 0#16 := by
    rw [← BitVec.shiftRight_add]
    exact BitVec.ushiftRight_eq_zero (Nat.le_refl 16)
  have high : a >>> 8 = tableEntry (a.setWidth 8) >>> 8 := by
    have shifted := congrArg (fun y : Word => y >>> 8) h
    simp only [BitVec.ushiftRight_xor_distrib, vanishes, BitVec.zero_xor] at shifted
    exact shifted.symm
  rw [← high, BitVec.xor_comm, h]

/-- Eight rounds have exactly two fixed points (R68). -/
theorem step8_fixed_iff (a : Word) : step8 a = a ↔ a = 0x0000#16 ∨ a = 0xC001#16 := by
  constructor
  · intro h
    have candidate := eq_candidate_of_step8_fixed h
    have two := fixed_candidates (a.setWidth 8)
    rw [← candidate] at two
    exact two rfl
  · rintro (rfl | rfl) <;> exact step8_of_crcRound_fixed (by decide)

end Sys2Proof.Machine
end

section
/-! SUPPORT. The fold over a concatenation (40_feedback_loop.md R70). -/

namespace Sys2Proof.Machine

theorem crcFold_append (a : Word) (x y : List Byte) :
    crcFold a (x ++ y) = crcFold (crcFold a x) y := by
  induction x generalizing a with
  | nil => rfl
  | cons b x ih => exact ih (byteStep a b)

theorem checksum_append (x y : List Byte) : checksum (x ++ y) = crcFold (checksum x) y :=
  crcFold_append initValue x y

theorem checksum_append_zero (x : List Byte) : checksum (x ++ [0x00#8]) = step8 (checksum x) := by
  rw [checksum_append, crcFold_cons, crcFold_nil, byteStep_zero]

theorem checksum_pair {a c : Word} {b₁ b₂ : Byte} (h₁ : byteStep initValue b₁ = a)
    (h₂ : byteStep a b₂ = c) : checksum [b₁, b₂] = c := by
  rw [checksum, crcFold_cons, h₁, crcFold_cons, h₂, crcFold_nil]

/-- INIT and then BYTE commands leave the checksum of the bytes so far and write nothing else (R70). -/
theorem performWords_init_byteWords (bs : List Byte) {s : State} (hs : s.running) :
    performWords (encode .init :: byteWords bs) s = .next (s.setAcc (checksum bs)) := by
  have hinit : commandStep s (encode .init) = .next (s.setAcc initValue) :=
    (commandStep_encode rfl s).trans (exec_init_of_running hs)
  exact (performWords_cons_of_next hinit _).trans (performWords_byteWords bs hs initValue)

end Sys2Proof.Machine
end

section
/-! PROOFS. The statements about the feedback loop (40_feedback_loop.md). -/

namespace Sys2Proof.Machine

/-- Settles O6: a round on the numbers, and six fixed values. -/
theorem roundHalvesAndFeedsBack : Obligations.RoundHalvesAndFeedsBack :=
  ⟨crcRound_toNat, by decide, by decide, by decide, by decide, by decide, by decide⟩

/-- Settles O7: the general output bit, read off at the bits the feedback constant has and has not. -/
theorem roundNetlist : Obligations.RoundNetlist := by
  intro a
  have netlist (i : Nat) (hi : i < 16) : (crcRound a).getLsbD i =
      (a.getLsbD (i + 1) ^^ (a.getLsbD 0 && (i == 15 || i == 13 || i == 0))) := by
    rw [crcRound_getLsbD, poly_getLsbD i hi]
  refine ⟨crcRound_getLsbD_15 a, ?bit14, ?bit13, fun i low high => ?middle, ?bit0⟩
  case bit14 => simp [netlist 14, -BitVec.getLsbD_eq_getElem]
  case bit13 => simp [netlist 13, -BitVec.getLsbD_eq_getElem]
  case middle =>
    have unset : (i == 15 || i == 13 || i == 0) = false := by grind
    rw [netlist i (by omega), unset, Bool.and_false, Bool.xor_false]
  case bit0 => simp [netlist 0, -BitVec.getLsbD_eq_getElem]

/-- Settles O8: the rounds of a byte are the iteration of one round. -/
theorem byteStepIsXorThenEightRounds : Obligations.ByteStepIsXorThenEightRounds := by
  refine ⟨fun a b => ?iterates, by decide, by decide, by decide, by decide, by decide, by decide⟩
  case iterates =>
    rw [BitVec.ofNat_toNat]
    exact rounds_eq_iterate 8 _

/-- Settles O10, from the linearity of a round. -/
theorem datapathIsLinear : Obligations.DatapathIsLinear :=
  ⟨crcRound_xor, by decide, step8_xor, byteStep_eq_xor⟩

/-- Settles O11: an injective function of a finite type is a bijection, so the left inverse of a round is
its right inverse too. -/
theorem datapathIsInvertible : Obligations.DatapathIsInvertible := by
  have round_bijective : Function.Bijective crcRound :=
    Finite.injective_iff_bijective.mp crcRound_injective
  exact ⟨fun a => ⟨unround_crcRound a,
      Function.LeftInverse.rightInverse_of_surjective unround_crcRound round_bijective.2 a⟩,
    round_bijective, Finite.injective_iff_bijective.mp step8_injective,
    fun b => Finite.injective_iff_bijective.mp (byteStep_injective b)⟩

/-- Settles O12: the mask selects the low byte, whose rounds the table holds. -/
theorem tableFormAgrees : Obligations.TableFormAgrees := by
  refine ⟨fun _ => rfl, fun x => ?eightRounds, fun a b => ?masked, byteStep_eq_byteStepByTable,
    by decide, by decide, by decide, by decide, by decide, by decide, by decide⟩
  case eightRounds => rw [and_0xFF_setWidth, step8_eq_table]
  case masked => rw [and_0xFF_setWidth, byteStep_eq_byteStepByTable, byteStepByTable]

/-- Settles O13: the byte step is injective in the byte, and a one-byte checksum is one byte step. -/
theorem distinctBytesDistinctChecksums : Obligations.DistinctBytesDistinctChecksums :=
  fun _ _ hne =>
    ⟨(byteStep_injective_right _).ne hne, (byteStep_injective_right initValue).ne hne⟩

/-- Settles O14: a zero byte at the end is eight rounds more, which fix two values only. -/
theorem trailingZeroByteFixedPoints : Obligations.TrailingZeroByteFixedPoints := by
  have ff_ff : checksum [0xFF#8, 0xFF#8] = 0x0000#16 :=
    checksum_pair (a := 0x00FF#16) (by decide) (by decide)
  have fe_3f : checksum [0xFE#8, 0x3F#8] = 0xC001#16 :=
    checksum_pair (a := 0xC03E#16) (by decide) (by decide)
  have trailing (x : List Byte) : checksum (x ++ [0x00#8]) = checksum x ↔
      checksum x = 0x0000#16 ∨ checksum x = 0xC001#16 := by
    rw [checksum_append_zero, step8_fixed_iff]
  exact ⟨step8_fixed_iff, by decide, by decide, trailing, ff_ff,
    ((trailing [0xFF#8, 0xFF#8]).mpr (.inl ff_ff)).trans ff_ff, fe_3f⟩

/-- Settles O15: the fold composes by induction on the first sequence; the first `k` bytes are a sequence of their
own, to which the lemma about INIT and BYTE commands applies. -/
theorem foldComposes : Obligations.FoldComposes :=
  ⟨crcFold_nil, crcFold_cons, crcFold_append, fun _ => rfl,
    fun _ x k hs => performWords_init_byteWords (x.take k) hs⟩

/-- Settles O17: the changed byte gives two accumulator values, which the bytes after it keep apart. -/
theorem oneChangedByteChangesTheChecksum : Obligations.OneChangedByteChangesTheChecksum := by
  intro x y b₁ b₂ hne h
  rw [checksum_append, checksum_append, crcFold_cons, crcFold_cons] at h
  exact hne (byteStep_injective_right (checksum x) (crcFold_injective y h))

end Sys2Proof.Machine
end

section
/-! SUPPORT. The commands one by one (41_commands.md R71, R73, R75): INIT's word, BYTE of an undefined
accumulator, READ of a defined one, and what a command leaves of the fault status and of the channel. -/

namespace Sys2Proof.Machine

theorem State.setAcc_self {s : State} {a : Word} (ha : s.acc = some a) : s.setAcc a = s := by
  rw [State.setAcc, ← ha]

theorem commandStep_init_of_running {s : State} (hs : s.running) :
    commandStep s (encode .init) = .next (s.setAcc initValue) :=
  (commandStep_encode rfl s).trans (exec_init_of_running hs)

theorem exec_byte_of_running {s : State} (hs : s.running) (b : Byte) :
    exec (.byte b) s = withAcc s fun a => .next (s.setAcc (byteStep a b)) := by
  simp only [exec, execByte, performing_of_running hs]

theorem exec_byte_of_undef {s : State} (hs : s.running) (ha : s.acc = none) (b : Byte) :
    exec (.byte b) s = .next (s.setFault .notInitialised) :=
  (exec_byte_of_running hs b).trans (withAcc_of_undef ha _)

/-- READ responds with the accumulator itself, since the output assembly gives it back (R75). -/
theorem exec_read_of_running {s : State} (hs : s.running) :
    exec .read s = withAcc s fun a => .next (s.respond a) := by
  simp only [exec, execRead, performing_of_running hs, readResult_eq]

theorem exec_read_responds_acc {s : State} {a : Word} (hs : s.running) (ha : s.acc = some a) :
    exec .read s = .next (s.respond a) :=
  (exec_read_of_running hs).trans (withAcc_of_some ha _)

theorem commandStep_read_responds_acc {s : State} {a : Word} (hs : s.running) (ha : s.acc = some a) :
    commandStep s (encode .read) = .next (s.respond a) :=
  (commandStep_encode rfl s).trans (exec_read_responds_acc hs ha)

/-- READ's response as the output assembly of R75 forms it, `L + H * 256`. -/
theorem readResult_eq_ofNat (a : Word) :
    readResult a = BitVec.ofNat 16 (a.toNat % 256 + a.toNat / 256 * 256) := by
  rw [readResult, assembleOutput, highByte_toNat, lowByte_toNat]

/-- A command that changes the fault status is a reserved word, or BYTE or READ of an undefined
accumulator, and each records its own code (R79). -/
theorem exec_changes_fault {i : Instr} {s t : State} (h : exec i s = .next t)
    (hfault : t.fault ≠ s.fault) :
    (reservedInstr i = true ∧ t.fault = .reservedCommand) ∨
      (needsAcc i = true ∧ s.acc = none ∧ t.fault = .notInitialised) := by
  by_cases hs : s.running
  · obtain ⟨-, rfl⟩ | ⟨b, a, -, -, rfl⟩ | ⟨a, -, -, rfl⟩ | ⟨hi, ha, rfl⟩ | ⟨hi, rfl⟩ :=
      exec_running_cases hs h
    · exact absurd rfl hfault
    · exact absurd rfl hfault
    · exact absurd rfl hfault
    · exact .inr ⟨hi, ha, rfl⟩
    · exact .inl ⟨hi, rfl⟩
  · cases (exec_of_faulted hs i).symm.trans h
    exact absurd rfl hfault

/-- No command touches the command channel: every write of a command is to another field. -/
theorem exec_inbox {i : Instr} {s t : State} (h : exec i s = .next t) : t.inbox = s.inbox := by
  by_cases hs : s.running
  · obtain ⟨-, rfl⟩ | ⟨b, a, -, -, rfl⟩ | ⟨a, -, -, rfl⟩ | ⟨-, -, rfl⟩ | ⟨-, rfl⟩ :=
      exec_running_cases hs h
    all_goals rfl
  · cases (exec_of_faulted hs i).symm.trans h
    rfl

end Sys2Proof.Machine
end

section
/-! SUPPORT. BYTE commands with a READ among them (41_commands.md R76), and the machine's run of any number
of steps (70_reset_and_hazards.md R113). -/

namespace Sys2Proof.Machine

theorem performWords_byteWords_of_some (bs : List Byte) {s : State} {a : Word} (hs : s.running)
    (ha : s.acc = some a) :
    performWords (byteWords bs) s = .next (s.setAcc (crcFold a bs)) := by
  have folded := performWords_byteWords bs hs a
  rwa [State.setAcc_self ha] at folded

theorem performWords_byteWords_append (x y : List Byte) {s : State} {a : Word} (hs : s.running)
    (ha : s.acc = some a) :
    performWords (byteWords x ++ byteWords y) s = .next (s.setAcc (crcFold a (x ++ y))) := by
  rw [byteWords, byteWords, ← List.map_append]
  exact performWords_byteWords_of_some (x ++ y) hs ha

/-- A READ between BYTE commands adds its response, the fold so far, and the fold goes on (R76). -/
theorem performWords_read_between (x y : List Byte) {s : State} {a : Word} (hs : s.running)
    (ha : s.acc = some a) :
    performWords (byteWords x ++ encode .read :: byteWords y) s =
      .next ((s.respond (crcFold a x)).setAcc (crcFold a (x ++ y))) := by
  calc performWords (byteWords x ++ encode .read :: byteWords y) s
      = performWords (encode .read :: byteWords y) (s.setAcc (crcFold a x)) :=
        performWords_append_of_next (performWords_byteWords_of_some x hs ha) _
    _ = performWords (byteWords y) ((s.respond (crcFold a x)).setAcc (crcFold a x)) :=
        performWords_cons_of_next
          (commandStep_read_responds_acc (s := s.setAcc (crcFold a x)) hs rfl) _
    _ = .next ((s.respond (crcFold a x)).setAcc (crcFold a (x ++ y))) := by
        rw [performWords_byteWords y (s := s.respond (crcFold a x)) hs, ← crcFold_append]

theorem core_run_succ_of_next {s t : State} (h : step s = .next t) (k : Nat) :
    Host.Core.run Sys2Proof.core (k + 1) s = Host.Core.run Sys2Proof.core k t := by
  have hcore : Sys2Proof.core.step s = .next t := h
  simp only [Host.Core.run, hcore]

theorem core_run_total (k : Nat) (s : State) :
    ∃ t, Host.Core.run Sys2Proof.core k s = .next t := by
  induction k generalizing s with
  | zero => exact ⟨s, rfl⟩
  | succ k ih =>
    obtain ⟨t, ht⟩ := step_total s
    rw [core_run_succ_of_next ht]
    exact ih t

end Sys2Proof.Machine
end

section
/-! PROOFS. The statements about the commands (41_commands.md). -/

namespace Sys2Proof.Machine

/-- Settles O20: BYTE by cases on the accumulator; a zero byte is eight rounds, whose fixed points are the
two of R68. -/
theorem byteFeedsTheAccumulator : Obligations.ByteFeedsTheAccumulator := by
  refine ⟨encode_byte_toNat, fun s a b hs ha => exec_byte_of_some hs ha b,
    fun s b hs ha => exec_byte_of_undef hs ha b, fun s b hs => exec_of_faulted hs (.byte b),
    fun s a hs ha => ⟨?zeroByte, step8_fixed_iff a⟩,
    by decide, by decide, by decide, by decide⟩
  case zeroByte =>
    rw [← byteStep_zero]
    exact exec_byte_of_some hs ha 0x00#8

/-- Settles O21: the response is the output assembly of the accumulator's two bytes, and these make up the
accumulator. -/
theorem readReturnsTheAccumulator : Obligations.ReadReturnsTheAccumulator := by
  refine ⟨rfl, fun s a hs ha => ⟨exec_read_responds_acc hs ha, ?assembled, highByte_toNat a,
    lowByte_toNat a⟩, fun s hs ha => exec_read_of_undef hs ha, fun s hs => exec_of_faulted hs .read⟩
  case assembled =>
    rw [← readResult_eq_ofNat]
    exact exec_read_of_some hs ha

/-- Settles O22: a READ writes only the response, so the words after it find the accumulator that the words
before it left. -/
theorem readDoesNotEndAComputation : Obligations.ReadDoesNotEndAComputation := by
  refine ⟨fun s x hs => ?initBytesRead, fun s a x y hs ha => ⟨performWords_read_between x y hs ha,
    performWords_byteWords_append x y hs ha⟩, fun s a hs ha => ?readTwice⟩
  case initBytesRead =>
    have call := performWords_callWords x hs
    rwa [readResult_eq] at call
  case readTwice =>
    rw [performWords_cons_of_next (commandStep_read_responds_acc hs ha),
      performWords_cons_of_next (commandStep_read_responds_acc (s := s.respond a) hs ha),
      performWords_nil, State.respond, State.respond, List.append_assoc, List.singleton_append]

/-- Settles O24: one lemma for each field of the state, each from what a command can do. -/
theorem commandsWriteOnlyWhatTheyMay : Obligations.CommandsWriteOnlyWhatTheyMay := by
  refine fun i s t h => ⟨exec_inbox h, fun hacc => ?acc, exec_changes_fault h, fun hresp => ?responses⟩
  case acc =>
    obtain ⟨hinit, -⟩ | ⟨b, -, hbyte, -⟩ := exec_changes_acc h hacc
    · exact .inl hinit
    · exact .inr ⟨b, hbyte⟩
  case responses =>
    obtain ⟨-, hread, hval⟩ := exec_changes_responses h hresp
    exact ⟨hread, hval⟩

/-- Settles O40: a run by induction on its steps, each of which answers a next state. -/
theorem everyStepCompletes : Obligations.EveryStepCompletes :=
  ⟨step_total, exec_total, core_run_total⟩

/-- Settles O18: INIT loads one constant unless a fault is recorded; that it is idempotent is part of the
statement about side effects. -/
theorem initLoadsInitialValue : Obligations.InitLoadsInitialValue := by
  obtain ⟨-, -, initTwice, -⟩ := sideEffectsAndIdempotency
  exact ⟨rfl, fun s => ⟨exec_init_of_running, fun hs => exec_of_faulted hs .init, initTwice s⟩⟩

/-- Settles O19: INIT overwrites the accumulator, so it leaves one and the same state, from which the words
after it go on. -/
theorem reinitialisationForgets : Obligations.ReinitialisationForgets := by
  intro s acc₁ acc₂ ws hs
  have forgets (acc : Option Word) : performWords (encode .init :: ws) { s with acc := acc } =
      performWords ws (s.setAcc initValue) :=
    performWords_cons_of_next (commandStep_init_of_running (s := { s with acc := acc }) hs) ws
  rw [forgets, forgets]

/-- Settles O23: the step is `exec` of the decoded command, whose branches have a lemma each; BYTE and READ
split on the accumulator as `withAcc` does. -/
theorem commandStepRule : Obligations.CommandStepRule := by
  refine fun s w => ⟨fun hs => commandStep_of_faulted hs w,
    fun hs hw => exec_reserved_of_running hw hs, fun hs hw => ?init, fun b hs hw => ?byte,
    fun hs hw => ?read⟩
  case init =>
    rw [commandStep, hw]
    exact exec_init_of_running hs
  case byte =>
    rw [commandStep, hw]
    exact exec_byte_of_running hs b
  case read =>
    rw [commandStep, hw]
    exact exec_read_of_running hs

end Sys2Proof.Machine
end

section
/-! SUPPORT. Legal words from a defined accumulator record no fault (42_host_call.md R88), and a run whose
words are all performed without one ends successfully (70_reset_and_hazards.md R114). -/

namespace Sys2Proof.Machine

theorem exec_legal_of_some {i : Instr} {s : State} {a : Word} (hi : reservedInstr i = false)
    (hs : s.running) (ha : s.acc = some a) :
    ∃ t b, exec i s = .next t ∧ t.running ∧ t.acc = some b := by
  cases i with
  | init => exact ⟨_, initValue, exec_init_of_running hs, hs, rfl⟩
  | byte b => exact ⟨_, byteStep a b, exec_byte_of_some hs ha b, hs, rfl⟩
  | read => exact ⟨_, a, exec_read_of_some hs ha, hs, ha⟩
  | reservedOp11 | reservedOp00 | reservedOp10 => cases hi

theorem performWords_legal_of_some {ws : List CommandWord} {s : State} {a : Word}
    (hws : ∀ w ∈ ws, reservedWord w = false) (hs : s.running) (ha : s.acc = some a) :
    ∃ t b, performWords ws s = .next t ∧ t.running ∧ t.acc = some b := by
  induction ws generalizing s a with
  | nil => exact ⟨s, a, rfl, hs, ha⟩
  | cons w ws ih =>
    obtain ⟨hw, hws⟩ := List.forall_mem_cons.mp hws
    obtain ⟨u, b, hstep, hu, hb⟩ := exec_legal_of_some hw hs ha
    rw [performWords_cons_of_next hstep]
    exact ih hws hu hb

theorem performWords_of_faulted {s : State} (hs : ¬ s.running) (ws : List CommandWord) :
    performWords ws s = .next s := by
  induction ws with
  | nil => rfl
  | cons w ws ih => rw [performWords_cons_of_next (commandStep_of_faulted hs w), ih]

theorem runFrom_cons_of_running {s t : State} {w : CommandWord} (h : commandStep s w = .next t)
    (ht : t.running) (ws : List CommandWord) (k : Nat) :
    runFrom (w :: ws) k s = runFrom ws (k + 1) t := by
  rw [runFrom, h]
  exact if_pos ht

/-- A fault is sticky, so words that end with none recorded met none on the way: their run is successful. -/
theorem runFrom_of_performWords_running {ws : List CommandWord} {s t : State}
    (h : performWords ws s = .next t) (ht : t.running) (k : Nat) :
    runFrom ws k s = .next { ending := .successful, final := t } := by
  induction ws generalizing s k with
  | nil =>
    cases h
    rfl
  | cons w ws ih =>
    obtain ⟨u, hu⟩ : ∃ u, commandStep s w = .next u := exec_total (decode w) s
    rw [performWords_cons_of_next hu] at h
    by_cases hrun : u.running
    · rw [runFrom_cons_of_running hu hrun]
      exact ih h (k + 1)
    · cases (performWords_of_faulted hrun ws).symm.trans h
      exact absurd ht hrun

end Sys2Proof.Machine
end

section
/-! SUPPORT. The machine that finds words in its channel does what performing them does, and takes nothing
else from the channel (30_encoding.md R43, 70_reset_and_hazards.md R114). -/

namespace Sys2Proof.Machine

theorem exec_needsAcc_of_undef {i : Instr} {s : State} (hi : needsAcc i = true) (hs : s.running)
    (ha : s.acc = none) : exec i s = .next (s.setFault .notInitialised) := by
  cases i with
  | byte b => exact exec_byte_of_undef hs ha b
  | read => exact exec_read_of_undef hs ha
  | init | reservedOp11 | reservedOp00 | reservedOp10 => cases hi

/-- A command neither reads nor writes the channel: with other events in it, it does the same. -/
theorem exec_setInbox {i : Instr} {s t : State} (h : exec i s = .next t) (es : List HostEvent) :
    exec i (s.setInbox es) = .next (t.setInbox es) := by
  by_cases hs : s.running
  · obtain ⟨rfl, rfl⟩ | ⟨b, a, rfl, ha, rfl⟩ | ⟨a, rfl, ha, rfl⟩ | ⟨hi, ha, rfl⟩ | ⟨hi, rfl⟩ :=
      exec_running_cases hs h
    · exact exec_init_of_running (s := s.setInbox es) hs
    · exact exec_byte_of_some (s := s.setInbox es) hs ha b
    · exact exec_read_of_some (s := s.setInbox es) hs ha
    · exact exec_needsAcc_of_undef (s := s.setInbox es) hi hs ha
    · exact exec_reserved_of_running (s := s.setInbox es) hi hs
  · cases (exec_of_faulted hs i).symm.trans h
    exact exec_of_faulted (s := s.setInbox es) hs i

theorem core_run_of_performWords {ws : List CommandWord} {s t : State}
    (h : performWords ws s = .next t) (es : List HostEvent) :
    Host.Core.run Sys2Proof.core ws.length (s.setInbox (ws.map .command ++ es)) =
      .next (t.setInbox es) := by
  induction ws generalizing s with
  | nil =>
    cases h
    rfl
  | cons w ws ih =>
    obtain ⟨u, hu⟩ : ∃ u, commandStep s w = .next u := exec_total (decode w) s
    rw [performWords_cons_of_next hu] at h
    have hstep : step (s.setInbox ((w :: ws).map .command ++ es)) =
        .next (u.setInbox (ws.map .command ++ es)) :=
      (step_of_command (State.setInbox_inbox s _)).trans (exec_setInbox hu _)
    rw [List.length_cons, core_run_succ_of_next hstep]
    exact ih h

end Sys2Proof.Machine
end

section
/-! SUPPORT. The call by its input (42_host_call.md R80, R81, R83): the checksum as the call's value, the
check of bytes, and the first element above 255. -/

namespace Sys2Proof.Machine

theorem crc16_eq_checksum {x : List Nat} {bs : List Byte} (hx : checkInput x = .ok bs)
    {s : State} (hs : s.running) :
    crc16 x s = .ok (.next
      { value := some (checksum bs), state := (s.setAcc (checksum bs)).respond (checksum bs) }) := by
  have call := crc16_of_running hx hs
  rwa [readResult_eq] at call

theorem callWords_length (bs : List Byte) : (callWords bs).length = bs.length + 2 := by
  simp [callWords, byteWords]

theorem checkInput_toNat (bs : List Byte) : checkInput (bs.map BitVec.toNat) = .ok bs := by
  have inRange : ∀ n ∈ bs.map BitVec.toNat, n ≤ 255 :=
    List.forall_mem_map.mpr fun b _ => Nat.le_of_lt_succ b.isLt
  rw [checkInput_of_le inRange, List.map_map]
  simp [Function.comp_def]

theorem collectBytes_of_first_wide (k : Nat) {x y : List Nat} {n : Nat} (hx : ∀ m ∈ x, m ≤ 255)
    (hn : 255 < n) :
    collectBytes k ((x ++ n :: y).map hostByte) = .error { index := k + x.length } := by
  induction x generalizing k with
  | nil => simp [collectBytes, hostByte, Nat.not_le.mpr hn]
  | cons m x ih =>
    obtain ⟨hm, hx⟩ := List.forall_mem_cons.mp hx
    have checked : hostByte m = some (BitVec.ofNat 8 m) := if_pos hm
    simp only [List.cons_append, List.map_cons, checked, collectBytes, ih (k + 1) hx,
      List.length_cons, Nat.succ_add_eq_add_succ]

theorem crc16_of_first_wide {x y : List Nat} {n : Nat} (hx : ∀ m ∈ x, m ≤ 255) (hn : 255 < n)
    (s : State) : crc16 (x ++ n :: y) s = .error { index := x.length } := by
  have check : checkInput (x ++ n :: y) = .error { index := x.length } := by
    rw [checkInput, collectBytes_of_first_wide 0 hx hn, Nat.zero_add]
  rw [crc16, check]

/-- An input with an element above 255 is cut at the first such element. -/
theorem exists_first_wide {x : List Nat} (h : ∃ n ∈ x, 255 < n) :
    ∃ pre n post, x = pre ++ n :: post ∧ 255 < n ∧ ∀ m ∈ pre, m ≤ 255 := by
  have found : (x.find? (255 < ·)).isSome := by simpa [List.find?_isSome] using h
  obtain ⟨n, hn⟩ := Option.isSome_iff_exists.mp found
  obtain ⟨wide, pre, post, rfl, before⟩ := List.find?_eq_some_iff_append.mp hn
  exact ⟨pre, n, post, rfl, by simpa using wide, by simpa using before⟩

end Sys2Proof.Machine
end

section
/-! PROOFS. The statements about the call (42_host_call.md). -/

namespace Sys2Proof.Machine

/-- Settles O44: INIT defines the accumulator and no legal word undefines it, so no word records a fault. -/
theorem legalWordsAfterInitNeverFault : Obligations.LegalWordsAfterInitNeverFault := by
  intro s ws hs hws
  obtain ⟨t, a, hperf, ht, ha⟩ := performWords_legal_of_some (s := s.setAcc initValue) hws hs rfl
  have hrun : performWords (encode .init :: ws) s = .next t :=
    (performWords_cons_of_next (commandStep_init_of_running hs) ws).trans hperf
  exact ⟨t, a, hrun, ht, ha, runFrom_of_performWords_running hrun ht 0⟩

/-- Settles O46: the call performs its words, and the machine that finds them in its channel performs the
same words; the check stops at the first element above 255. -/
theorem callComputesTheChecksum : Obligations.CallComputesTheChecksum := by
  refine ⟨fun s x hs hx => ⟨crc16_eq_checksum (checkInput_of_le hx) hs, fun es hbox => ?machine⟩,
    fun s x y n hx hn => crc16_of_first_wide hx hn s⟩
  case machine =>
    have run := core_run_of_performWords (performWords_callWords (x.map (BitVec.ofNat 8)) hs) es
    rw [callWords_length, List.length_map, callWords_ofNat hx, readResult_eq, ← hbox] at run
    exact run

/-- Settles O47: the input is cut at its first element above 255, whose index is the length of what stands
before it. -/
theorem callRejectsOutOfRangeInput : Obligations.CallRejectsOutOfRangeInput := by
  intro s x hx
  obtain ⟨pre, n, post, rfl, hn, hpre⟩ := exists_first_wide hx
  refine ⟨pre.length, n, crc16_of_first_wide hpre hn s, by simp, hn, fun j m hj hm => ?before⟩
  case before =>
    rw [List.getElem?_append_left hj] at hm
    exact hpre m (List.mem_of_getElem? hm)

/-- Settles O48: the two bytes are the quotient and the remainder by 256, and a call returns the fold it
leaves in the accumulator. -/
theorem outputAssemblyIsTheIdentity : Obligations.OutputAssemblyIsTheIdentity := by
  refine ⟨fun a => ⟨?high, lowByte_toNat a, ?sum, readResult_eq a⟩, fun s x hs => ?call⟩
  case high =>
    rw [highByte_toNat]
    omega
  case sum => rw [highByte_toNat, lowByte_toNat, Nat.mod_add_div']
  case call =>
    have assembled : some (checksum x) = some (readResult (checksum x)) := by rw [readResult_eq]
    exact ⟨_, crc16_eq_checksum (checkInput_toNat x) hs, assembled, rfl, rfl⟩

/-- Settles O49: the fold over no bytes is the initial value. -/
theorem emptyInputReturnsInitialValue : Obligations.EmptyInputReturnsInitialValue :=
  fun _ hs => ⟨rfl, _, crc16_eq_checksum (checkInput_toNat []) hs, rfl⟩

end Sys2Proof.Machine
end

section
/-! SUPPORT. Fault entry (60_exceptions.md R91, R93): what a command does that leaves a fault recorded, and
which commands can meet an undefined accumulator. -/

namespace Sys2Proof.Machine

/-- A command that takes an engine with no fault recorded to one with a fault does no more than `raise`
(R93), for one of two causes. -/
theorem exec_raises {i : Instr} {s t : State} (hs : s.running) (h : exec i s = .next t)
    (ht : ¬ t.running) :
    (reservedInstr i = true ∧ t = s.setFault .reservedCommand) ∨
      (needsAcc i = true ∧ s.acc = none ∧ t = s.setFault .notInitialised) := by
  obtain ⟨-, rfl⟩ | ⟨b, a, -, -, rfl⟩ | ⟨a, -, -, rfl⟩ | ⟨hi, ha, rfl⟩ | ⟨hi, rfl⟩ :=
    exec_running_cases hs h
  · exact absurd hs ht
  · exact absurd hs ht
  · exact absurd hs ht
  · exact .inr ⟨hi, ha, rfl⟩
  · exact .inl ⟨hi, rfl⟩

theorem needsAcc_iff (i : Instr) : needsAcc i = true ↔ i = .read ∨ ∃ b, i = .byte b := by
  cases i <;> simp [needsAcc]

theorem needsAcc_of_reserved {i : Instr} (hi : reservedInstr i = true) : needsAcc i = false := by
  cases i with
  | init | byte | read => cases hi
  | reservedOp11 | reservedOp00 | reservedOp10 => rfl

/-- `NotInitialised` is the code of BYTE and READ of an undefined accumulator alone (R91). -/
theorem exec_notInitialised_iff {i : Instr} {s : State} (hs : s.running) :
    (∃ t, exec i s = .next t ∧ t.fault = .notInitialised) ↔ needsAcc i = true ∧ s.acc = none := by
  constructor
  · rintro ⟨t, h, ht⟩
    have faulted : ¬ t.running := by simp [ht]
    obtain ⟨-, rfl⟩ | ⟨hi, ha, -⟩ := exec_raises hs h faulted
    · cases ht
    · exact ⟨hi, ha⟩
  · rintro ⟨hi, ha⟩
    exact ⟨_, exec_needsAcc_of_undef hi hs ha, rfl⟩

/-- Only INIT gives an undefined accumulator a value (R16). -/
theorem exec_keeps_undef {i : Instr} {s t : State} (hi : i ≠ .init) (ha : s.acc = none)
    (h : exec i s = .next t) : t.acc = none := by
  by_contra hdef
  obtain ⟨hinit, -⟩ | ⟨b, a, -, hsome, -⟩ := exec_changes_acc h (by rwa [ha])
  · exact hi hinit
  · cases ha.symm.trans hsome

theorem performWords_keeps_undef {ws : List CommandWord} {s t : State}
    (hws : ∀ w ∈ ws, decode w ≠ .init) (ha : s.acc = none) (h : performWords ws s = .next t) :
    t.acc = none := by
  induction ws generalizing s with
  | nil =>
    cases h
    exact ha
  | cons w ws ih =>
    obtain ⟨hw, hws⟩ := List.forall_mem_cons.mp hws
    obtain ⟨u, hu⟩ : ∃ u, commandStep s w = .next u := exec_total (decode w) s
    rw [performWords_cons_of_next hu] at h
    exact ih hws (exec_keeps_undef hw ha hu) h

theorem exec_keeps_faultConsistent {i : Instr} {s t : State} (hinv : FaultConsistent s)
    (h : exec i s = .next t) : FaultConsistent t := by
  intro ht
  by_cases hs : s.running
  · obtain ⟨hi, ha⟩ := (exec_notInitialised_iff hs).mp ⟨t, h, ht⟩
    have notInit : i ≠ .init := by
      rintro rfl
      cases hi
    exact exec_keeps_undef notInit ha h
  · cases (exec_of_faulted hs i).symm.trans h
    exact hinv ht

end Sys2Proof.Machine
end

section
/-! SUPPORT. The end of a run at its first fault (60_exceptions.md R93, R94, 70_reset_and_hazards.md R114),
and the step with nothing in the channel or at a reset (60_exceptions.md R104, 70_reset_and_hazards.md
R106). -/

namespace Sys2Proof.Machine

theorem runFrom_cons_of_faulted {s t : State} {w : CommandWord} (h : commandStep s w = .next t)
    (ht : ¬ t.running) (ws : List CommandWord) (k : Nat) :
    runFrom (w :: ws) k s = .next { ending := .faulted k, final := t } := by
  rw [runFrom, h]
  exact if_neg ht

/-- The faulting word of a run divides its program: the words before it have been performed with no fault,
and the run's final state is the one this word leaves. -/
theorem runFrom_faulted {p : List CommandWord} {k n : Nat} {s : State} {r : RunResult}
    (hs : s.running) (h : runFrom p k s = .next r) (hend : r.ending = .faulted n) :
    ∃ pre w post u, p = pre ++ w :: post ∧ n = k + pre.length ∧ performWords pre s = .next u ∧
      u.running ∧ commandStep u w = .next r.final ∧ ¬ r.final.running := by
  induction p generalizing k s with
  | nil =>
    cases h
    cases hend
  | cons w ws ih =>
    obtain ⟨t, ht⟩ : ∃ t, commandStep s w = .next t := exec_total (decode w) s
    by_cases hrun : t.running
    · rw [runFrom_cons_of_running ht hrun] at h
      obtain ⟨pre, v, post, u, rfl, rfl, hpre, hu, hv, hr⟩ := ih hrun h
      exact ⟨w :: pre, v, post, u, rfl, by rw [List.length_cons]; omega,
        (performWords_cons_of_next ht pre).trans hpre, hu, hv, hr⟩
    · cases (runFrom_cons_of_faulted ht hrun ws k).symm.trans h
      cases hend
      exact ⟨[], w, ws, s, rfl, rfl, rfl, hs, ht, hrun⟩

theorem step_of_idle {s : State} (h : s.inbox = []) : step s = .next s := by
  simp [step, takeEvent, h]

theorem core_run_of_idle {s : State} (h : s.inbox = []) (k : Nat) :
    Host.Core.run Sys2Proof.core k s = .next s := by
  induction k with
  | zero => rfl
  | succ k ih => rw [core_run_succ_of_next (step_of_idle h), ih]

theorem step_of_resetDuring {s : State} {w : CommandWord} {es : List HostEvent}
    (h : s.inbox = .resetDuring w :: es) : step s = .next (applyReset (s.setInbox es)) := by
  simp [step, takeEvent, h]

end Sys2Proof.Machine
end

section
/-! PROOFS. The statements about faults (60_exceptions.md). -/

namespace Sys2Proof.Machine

/-- Settles O39, from what `step` can do: a command keeps the invariant, and a reset leaves `acc = UNDEF`. -/
theorem stepKeepsFaultConsistent : Obligations.StepKeepsFaultConsistent := by
  intro s t hinv h
  obtain ⟨-, hstep⟩ | ⟨w, es, -, hstep⟩ | ⟨es, -, hstep⟩ | ⟨w, es, -, hstep⟩ := step_cases s
  · cases hstep.symm.trans h
    exact hinv
  · exact exec_keeps_faultConsistent (s := s.setInbox es) hinv (hstep.symm.trans h)
  all_goals
    cases hstep.symm.trans h
    exact fun _ => applyReset_acc _

/-- Settles O28: the cause is the only one of the two that records this code, and without INIT the accumulator
stays as reset left it. -/
theorem notInitialisedCause : Obligations.NotInitialisedCause := by
  refine ⟨fun s w hs => ?cause, fun ws t hws h => performWords_keeps_undef hws State.reset_acc h, rfl⟩
  case cause =>
    rw [← needsAcc_iff]
    exact exec_notInitialised_iff hs

/-- Settles O29: either cause does no more than `raise`, which writes the fault status alone. -/
theorem faultEntryRecordsOnlyTheCode : Obligations.FaultEntryRecordsOnlyTheCode := by
  refine ⟨rfl, rfl, raise_eq, fun i s t hs h ht => ?entry⟩
  case entry =>
    obtain ⟨-, rfl⟩ | ⟨-, -, rfl⟩ := exec_raises hs h ht
    · exact ⟨rfl, .inl rfl⟩
    · exact ⟨rfl, .inr rfl⟩

/-- Settles O30: the faulting word divides the program; it only records its code, and the words after it
find a fault recorded. -/
theorem faultsArePrecise : Obligations.FaultsArePrecise := by
  intro p s j r hs h hend
  obtain ⟨pre, w, post, u, rfl, rfl, hpre, hu, hw, hr⟩ := runFrom_faulted hs h hend
  obtain ⟨-, -, -, onlyTheCode⟩ := faultEntryRecordsOnlyTheCode
  refine ⟨u, ?before, hu, hr, (onlyTheCode _ u r.final hu hw hr).1, ?whole⟩
  case before => rwa [Nat.zero_add, List.take_left]
  case whole =>
    rw [performWords_append_of_next hpre, performWords_cons_of_next hw, performWords_of_faulted hr]

/-- Settles O31: a faulted engine performs no word, and a run tests the fault status after each word. -/
theorem faultedEnginePerformsNothing : Obligations.FaultedEnginePerformsNothing :=
  ⟨fun _ ws hs => performWords_of_faulted hs ws, fun _ i hs => exec_of_faulted hs i,
    fun _ _ _ ws k h ht => runFrom_cons_of_faulted h ht ws k⟩

/-- Settles O32: a reserved command does no more than `raise`, whatever `acc` is, and a reset in the channel
takes the place of the word in progress. -/
theorem faultPriority : Obligations.FaultPriority := by
  refine ⟨?oneFault, fun s w hs _ hw => exec_reserved_of_running hw hs,
    fun s w es hbox => ⟨_, step_of_resetDuring hbox, rfl, rfl⟩⟩
  case oneFault =>
    rintro i ⟨hreserved, hneeds⟩
    cases (needsAcc_of_reserved hreserved).symm.trans hneeds

/-- Settles O36: an idle step answers the same state, and so does any number of them. -/
theorem idleEngineKeepsItsState : Obligations.IdleEngineKeepsItsState :=
  fun s k h => ⟨s, core_run_of_idle h k, rfl, rfl⟩

end Sys2Proof.Machine
end

section
/-! SUPPORT. A reset and the word behind it (70_reset_and_hazards.md R105, R107), and every run of a program
against the words performed one after another (R114). -/

namespace Sys2Proof.Machine

theorem step_of_reset {s : State} {es : List HostEvent} (h : s.inbox = .reset :: es) :
    step s = .next (applyReset (s.setInbox es)) := by
  simp [step, takeEvent, h]

/-- The word behind a reset is performed in the state that the reset leaves. -/
theorem core_run_of_reset_command {s t : State} {w : CommandWord} {es : List HostEvent}
    (hbox : s.inbox = .reset :: .command w :: es)
    (h : commandStep (applyReset (s.setInbox es)) w = .next t) :
    Host.Core.run Sys2Proof.core 2 s = .next t := by
  have hword : step (applyReset (s.setInbox (.command w :: es))) = .next t :=
    (step_of_command rfl).trans h
  rw [core_run_succ_of_next (step_of_reset hbox), core_run_succ_of_next hword]
  rfl

theorem performWords_total (ws : List CommandWord) (s : State) :
    ∃ t, performWords ws s = .next t := by
  induction ws generalizing s with
  | nil => exact ⟨s, rfl⟩
  | cons w ws ih =>
    obtain ⟨u, hu⟩ : ∃ u, commandStep s w = .next u := exec_total (decode w) s
    rw [performWords_cons_of_next hu]
    exact ih u

/-- A run stops at the first fault and performing words does not, but the words after the fault do nothing:
both leave the same state, and the end tells whether a fault is recorded in it. -/
theorem runFrom_of_performWords {ws : List CommandWord} {s t : State} (hs : s.running)
    (h : performWords ws s = .next t) (k : Nat) :
    ∃ e, runFrom ws k s = .next { ending := e, final := t } ∧ (e = .successful ↔ t.running) := by
  induction ws generalizing s k with
  | nil =>
    cases h
    exact ⟨.successful, rfl, iff_of_true rfl hs⟩
  | cons w ws ih =>
    obtain ⟨u, hu⟩ : ∃ u, commandStep s w = .next u := exec_total (decode w) s
    rw [performWords_cons_of_next hu] at h
    by_cases hrun : u.running
    · rw [runFrom_cons_of_running hu hrun]
      exact ih hrun h (k + 1)
    · cases (performWords_of_faulted hrun ws).symm.trans h
      exact ⟨.faulted k, runFrom_cons_of_faulted hu hrun ws k, iff_of_false nofun hrun⟩

/-- The machine that finds a program in its channel after reset performs it and empties the channel. -/
theorem core_run_issue_reset {p : List CommandWord} {t : State}
    (h : performWords p State.reset = .next t) :
    Host.Core.run Sys2Proof.core p.length (State.reset.issue p) = .next (t.setInbox []) := by
  have run := core_run_of_performWords h []
  rwa [List.append_nil] at run

end Sys2Proof.Machine
end

section
/-! PROOFS. The statements about reset, boot and the end of a run (70_reset_and_hazards.md). -/

namespace Sys2Proof.Machine

/-- Settles O45: reset leaves `acc = UNDEF` and no fault, on which BYTE and READ record theirs and INIT loads
its value. -/
theorem bootNeedsInit : Obligations.BootNeedsInit := by
  refine fun s w es hbox => ⟨fun hneeds => ?needsAcc, ?init⟩
  case needsAcc =>
    have raised := exec_needsAcc_of_undef hneeds (applyReset_fault (s.setInbox es)) rfl
    exact ⟨_, core_run_of_reset_command hbox raised, rfl, rfl⟩
  case init =>
    rintro rfl
    have loaded := commandStep_init_of_running (applyReset_fault (s.setInbox es))
    exact ⟨_, core_run_of_reset_command hbox loaded, rfl, rfl⟩

/-- Settles O51: the run, the machine and the words performed one after another leave one state; a faulting
word divides the program. -/
theorem runOfAProgramIsTheMachinesRun : Obligations.RunOfAProgramIsTheMachinesRun := by
  intro p
  obtain ⟨t, hperf⟩ := performWords_total p State.reset
  obtain ⟨e, hrun, hend⟩ := runFrom_of_performWords State.reset_fault hperf 0
  refine ⟨_, _, hrun, core_run_issue_reset hperf, rfl, hend, fun _ => hperf, fun j hj => ?faulted⟩
  case faulted =>
    obtain ⟨pre, w, post, u, rfl, rfl, hpre, hu, hw, ht⟩ :=
      runFrom_faulted State.reset_fault hrun hj
    rw [Nat.zero_add, List.take_left, List.take_length_add_append, List.take_succ_cons,
      List.take_zero, performWords_append_of_next hpre, performWords_cons_of_next hw]
    exact ⟨by simp, ⟨u, hpre, hu⟩, rfl, ht⟩

/-- Settles O34: the step at either kind of reset is `applyReset`, which touches no response. -/
theorem resetAlwaysLeavesTheResetState : Obligations.ResetAlwaysLeavesTheResetState :=
  fun _ _ _ => ⟨fun hbox => ⟨_, step_of_reset hbox, rfl, rfl⟩,
    fun hbox => ⟨_, step_of_resetDuring hbox, rfl, rfl, le_rfl⟩⟩

/-- Settles O35: the step at either kind of reset takes the event from the channel and is `applyReset`. -/
theorem resetKeepsTheHostsSide : Obligations.ResetKeepsTheHostsSide := by
  rintro s w es (hbox | hbox)
  · exact step_of_reset hbox
  · exact step_of_resetDuring hbox

end Sys2Proof.Machine
end
